-- ==== Sys2Proof/Word.lean ====
section
/-! DEFINITION. The word types of the engine (spec/00_scope.md R7). -/

namespace Sys2Proof

/-- A byte of memory, a general register, an immediate `kk` (R7). -/
abbrev Byte := BitVec 8

/-- An instruction word, the program counter, a call-stack slot (R7). -/
abbrev Word := BitVec 16

/-- A 4-bit field of an instruction word (30_encoding.md R62). -/
abbrev Nibble := BitVec 4

/-- The index of a general register, 0 to 15 (10_state.md R21). -/
abbrev RegIdx := BitVec 4

/-- The index of a call-stack slot, 0 to 15 (10_state.md R30). -/
abbrev SlotIdx := BitVec 4

/-- A 12-bit address: the `addr` field and the addresses of `mem` (R7). -/
abbrev Addr := BitVec 12

/-- The 5 bits that hold the stack pointer (10_state.md R31). -/
abbrev StackPtr := BitVec 5

end Sys2Proof
end

