-- ==== Sys2Proof/Config.lean ====
section
/-! DEFINITION. What is fixed for the machine: the sizes of spec/00_scope.md R7. Every size is a number of the spec and none
is a model argument; the spec leaves no value open (93_implementation_defined.md, part 1), so there is no free value here. -/

namespace Sys2Proof.Config

/-- MEM_SIZE (R7, 20_memory.md R40). -/
@[simp] abbrev memSize : Nat := 4096

/-- The largest `pc` at which a fetch is legal, MEM_SIZE - 2 (R7, 20_memory.md R44). -/
@[simp] abbrev lastFetch : Nat := 4094

/-- STACK_DEPTH: the number of call-stack slots and the largest legal `sp` (R7, 10_state.md R31). -/
@[simp] abbrev stackDepth : Nat := 16

/-- What a byte of memory holds that nobody has written since reset (10_state.md R36, 93 U11). -/
@[simp] abbrev resetByte : Byte := 0x00#8

end Sys2Proof.Config
end

