-- ==== Sys2Proof/Syntax.lean ====
section
/-! DEFINITION. The instructions, one constructor per row of spec/opcode_table.json, and the written form of an instruction
(spec/30_encoding.md R70). -/

namespace Sys2Proof

/-- The 15 instructions of 30_encoding.md R66, in the table's order. Every operand has exactly the width of its field (R62),
so every term is one the encoding can hold. -/
inductive Instr where
  /-- `0x0000` (R90) -/
  | halt
  /-- `0x00E0` (R91) -/
  | cls
  /-- `0x00EE` (R92) -/
  | ret
  /-- `0x1nnn` (R93) -/
  | jmp (addr : Addr)
  /-- `0x2nnn` (R94) -/
  | call (addr : Addr)
  /-- `0x3xkk` (R96) -/
  | seImm (x : RegIdx) (kk : Byte)
  /-- `0x4xkk` (R97) -/
  | sneImm (x : RegIdx) (kk : Byte)
  /-- `0x5xy0` (R98) -/
  | seReg (x y : RegIdx)
  /-- `0x6xkk` (R100) -/
  | ldImm (x : RegIdx) (kk : Byte)
  /-- `0x7xkk` (R101) -/
  | addImm (x : RegIdx) (kk : Byte)
  /-- `0x8xy0` (R102) -/
  | ldReg (x y : RegIdx)
  /-- `0x8xy1` (R103) -/
  | or (x y : RegIdx)
  /-- `0x8xy2` (R104) -/
  | and (x y : RegIdx)
  /-- `0x8xy3` (R105) -/
  | xor (x y : RegIdx)
  /-- `0x8xy4` (R106) -/
  | addReg (x y : RegIdx)
deriving DecidableEq, Repr

/-- The mnemonics of the assembly syntax (R70): SE, LD and ADD name two forms each, told apart by the operands. -/
inductive AsmName where
  | HALT | CLS | RET | JMP | CALL | SE | SNE | LD | ADD | OR | AND | XOR
deriving DecidableEq, Repr

/-- An operand as written: a register `V<n>` or a number (R70). The number is not bounded here; WellFormed.lean bounds it. -/
inductive AsmArg where
  | reg (n : Nat)
  | num (n : Nat)
deriving DecidableEq, Repr

/-- An instruction as written, before any check: a mnemonic and its operands in order, destination first (R70). -/
structure AsmLine where
  name : AsmName
  args : List AsmArg
deriving DecidableEq, Repr

end Sys2Proof
end

