-- ==== Sys2Proof/WellFormed.lean ====
section
/-! DEFINITION. Which written instructions are well formed (spec/30_encoding.md R70, R71). A term of `Instr` needs no check:
its operands have the widths of their fields, so every one of them is well formed. A written line can be wrong in its form
(wrong number or kinds of operands) and in the range of each operand; "a value outside the range is an assembly error, not
a truncation" (R70). -/

namespace Sys2Proof

/-- The operand list has one of the shapes R70 lists for the mnemonic. -/
def AsmLine.formOk : AsmLine → Bool
  | ⟨.HALT, []⟩ | ⟨.CLS, []⟩ | ⟨.RET, []⟩ => true
  | ⟨.JMP, [.num _]⟩ | ⟨.CALL, [.num _]⟩ => true
  | ⟨.SE, [.reg _, .num _]⟩ | ⟨.SNE, [.reg _, .num _]⟩ => true
  | ⟨.LD, [.reg _, .num _]⟩ | ⟨.ADD, [.reg _, .num _]⟩ => true
  | ⟨.SE, [.reg _, .reg _]⟩ | ⟨.LD, [.reg _, .reg _]⟩ | ⟨.ADD, [.reg _, .reg _]⟩ => true
  | ⟨.OR, [.reg _, .reg _]⟩ | ⟨.AND, [.reg _, .reg _]⟩ | ⟨.XOR, [.reg _, .reg _]⟩ => true
  | _ => false

/-- The largest number the mnemonic takes: an address 0 to 0xFFF for JMP and CALL, an immediate 0 to 0xFF elsewhere (R70). -/
def AsmName.maxNum : AsmName → Nat
  | .JMP | .CALL => 0xFFF
  | _ => 0xFF

/-- An operand lies in its range: `V0` to `VF`, a number up to the mnemonic's largest (R70). -/
def AsmArg.inRange (name : AsmName) : AsmArg → Bool
  | .reg n => decide (n < 16)
  | .num n => decide (n ≤ name.maxNum)

/-- A written instruction that R70 gives a word. -/
def AsmLine.wellFormed (l : AsmLine) : Bool :=
  l.formOk && l.args.all (AsmArg.inRange l.name)

end Sys2Proof
end

