-- ==== Sys2Proof/Decode.lean ====
section
/-! DEFINITION. Decoding and encoding (spec/30_encoding.md R60 to R68), the opcode table as data (R66), and the assembly
syntax (R70). -/

namespace Sys2Proof

/-- The instruction word of two bytes, the first at the lower address in the high half (R61, 20_memory.md R42). -/
def wordOfBytes (hi lo : Byte) : Word := hi ++ lo

/-- Bits 15 to 8 of a word, the byte at the lower address (R61). -/
def highByte (w : Word) : Byte := w.extractLsb' 8 8

/-- Bits 7 to 0 of a word, the byte at the higher address (R61). -/
def lowByte (w : Word) : Byte := w.extractLsb' 0 8

/-- `op = W[15:12]` (R62). -/
def fieldOp (w : Word) : Nibble := w.extractLsb' 12 4

/-- `x = W[11:8]` (R62). -/
def fieldX (w : Word) : RegIdx := w.extractLsb' 8 4

/-- `y = W[7:4]` (R62). -/
def fieldY (w : Word) : RegIdx := w.extractLsb' 4 4

/-- `n = W[3:0]` (R62). -/
def fieldN (w : Word) : Nibble := w.extractLsb' 0 4

/-- `kk = W[7:0]` (R62). -/
def fieldKk (w : Word) : Byte := w.extractLsb' 0 8

/-- `addr = W[11:0]` (R62). -/
def fieldAddr (w : Word) : Addr := w.extractLsb' 0 12

/-- Why bytes decode to no instruction. -/
inductive Reject where
  /-- fewer than the two bytes every instruction has (R60); the fetch of a step never gives such a list -/
  | truncated
  /-- the word matches no row of R66 (R67) -/
  | unimplementedOpcode (w : Word)
deriving DecidableEq, Repr

/-- The dispatcher: the tests of R65 in its order. Exact match on the masked bits: group 0 has three words, `0x5xyN` only
`N = 0`, `0x8xyN` only `N` from 0 to 4 (92_eei_decisions.md D8; UNVERIFIED, unsafe, log 14). -/
def decodeWord (w : Word) : Except Reject Instr :=
  if w = 0x0000#16 then .ok .halt
  else if w = 0x00E0#16 then .ok .cls
  else if w = 0x00EE#16 then .ok .ret
  else if fieldOp w = 0x1#4 then .ok (.jmp (fieldAddr w))
  else if fieldOp w = 0x2#4 then .ok (.call (fieldAddr w))
  else if fieldOp w = 0x3#4 then .ok (.seImm (fieldX w) (fieldKk w))
  else if fieldOp w = 0x4#4 then .ok (.sneImm (fieldX w) (fieldKk w))
  else if fieldOp w = 0x5#4 ∧ fieldN w = 0x0#4 then .ok (.seReg (fieldX w) (fieldY w))
  else if fieldOp w = 0x6#4 then .ok (.ldImm (fieldX w) (fieldKk w))
  else if fieldOp w = 0x7#4 then .ok (.addImm (fieldX w) (fieldKk w))
  else if fieldOp w = 0x8#4 ∧ fieldN w = 0x0#4 then .ok (.ldReg (fieldX w) (fieldY w))
  else if fieldOp w = 0x8#4 ∧ fieldN w = 0x1#4 then .ok (.or (fieldX w) (fieldY w))
  else if fieldOp w = 0x8#4 ∧ fieldN w = 0x2#4 then .ok (.and (fieldX w) (fieldY w))
  else if fieldOp w = 0x8#4 ∧ fieldN w = 0x3#4 then .ok (.xor (fieldX w) (fieldY w))
  else if fieldOp w = 0x8#4 ∧ fieldN w = 0x4#4 then .ok (.addReg (fieldX w) (fieldY w))
  else .error (.unimplementedOpcode w)

/-- Decoding of a byte stream: two bytes make the word (R60, R61), the rest is left over. Total on any bytes. -/
def decode : List Byte → Except Reject (Instr × List Byte)
  | hi :: lo :: rest =>
    match decodeWord (wordOfBytes hi lo) with
    | .ok i => .ok (i, rest)
    | .error e => .error e
  | _ => .error .truncated

/-- The word of an instruction, laid out by its format (R63) with the fixed digits of its pattern (R66). -/
def encode : Instr → Word
  | .halt => 0x0000#16
  | .cls => 0x00E0#16
  | .ret => 0x00EE#16
  | .jmp addr => 0x1#4 ++ addr
  | .call addr => 0x2#4 ++ addr
  | .seImm x kk => 0x3#4 ++ x ++ kk
  | .sneImm x kk => 0x4#4 ++ x ++ kk
  | .seReg x y => 0x5#4 ++ x ++ y ++ 0x0#4
  | .ldImm x kk => 0x6#4 ++ x ++ kk
  | .addImm x kk => 0x7#4 ++ x ++ kk
  | .ldReg x y => 0x8#4 ++ x ++ y ++ 0x0#4
  | .or x y => 0x8#4 ++ x ++ y ++ 0x1#4
  | .and x y => 0x8#4 ++ x ++ y ++ 0x2#4
  | .xor x y => 0x8#4 ++ x ++ y ++ 0x3#4
  | .addReg x y => 0x8#4 ++ x ++ y ++ 0x4#4

/-- The two bytes of an instruction in memory order (R61). -/
def encodeBytes (i : Instr) : List Byte := [highByte (encode i), lowByte (encode i)]

/-- One row of the opcode map (R66): a word is the instruction exactly when `W & mask == pattern`. -/
structure OpRow where
  mnemonic : String
  mask : Word
  pattern : Word
deriving DecidableEq, Repr

/-- The opcode map of R66, row by row; `pattern` is its column "match". -/
def opcodeTable : List OpRow :=
  [ ⟨"HALT", 0xFFFF#16, 0x0000#16⟩, ⟨"CLS", 0xFFFF#16, 0x00E0#16⟩, ⟨"RET", 0xFFFF#16, 0x00EE#16⟩,
    ⟨"JMP", 0xF000#16, 0x1000#16⟩, ⟨"CALL", 0xF000#16, 0x2000#16⟩ ] ++
  [ ⟨"SE_imm", 0xF000#16, 0x3000#16⟩, ⟨"SNE_imm", 0xF000#16, 0x4000#16⟩, ⟨"SE_reg", 0xF00F#16, 0x5000#16⟩,
    ⟨"LD_imm", 0xF000#16, 0x6000#16⟩, ⟨"ADD_imm", 0xF000#16, 0x7000#16⟩ ] ++
  [ ⟨"LD_reg", 0xF00F#16, 0x8000#16⟩, ⟨"OR", 0xF00F#16, 0x8001#16⟩, ⟨"AND", 0xF00F#16, 0x8002#16⟩,
    ⟨"XOR", 0xF00F#16, 0x8003#16⟩, ⟨"ADD_reg", 0xF00F#16, 0x8004#16⟩ ]

/-- The word matches the row (R66). -/
def OpRow.matches (r : OpRow) (w : Word) : Bool := w &&& r.mask == r.pattern

/-- The table mnemonic of an instruction (R66). -/
def Instr.mnemonic : Instr → String
  | .halt => "HALT"
  | .cls => "CLS"
  | .ret => "RET"
  | .jmp _ => "JMP"
  | .call _ => "CALL"
  | .seImm _ _ => "SE_imm"
  | .sneImm _ _ => "SNE_imm"
  | .seReg _ _ => "SE_reg"
  | .ldImm _ _ => "LD_imm"
  | .addImm _ _ => "ADD_imm"
  | .ldReg _ _ => "LD_reg"
  | .or _ _ => "OR"
  | .and _ _ => "AND"
  | .xor _ _ => "XOR"
  | .addReg _ _ => "ADD_reg"

/-- The 16-bit word among the table's bits: bit 0 is the least significant bit of the one word an instruction has (R60), and
bits at `nbits` and above are 0. -/
def tableWord (nbits w : Nat) : Word := BitVec.ofNat 16 (w % 2 ^ nbits)

/-- What the decoder reads from a word given as the opcode table numbers its bits: laid out in memory order, then decoded. -/
def decodeTableWord (nbits w : Nat) : Option Instr :=
  match decode [highByte (tableWord nbits w), lowByte (tableWord nbits w)] with
  | .ok (i, _) => some i
  | .error _ => none

/-- The instruction a well-formed written line stands for; none is an assembly error (R70). The kind of the second operand
picks the form of SE, LD and ADD. -/
def AsmLine.toInstr (l : AsmLine) : Option Instr :=
  if l.wellFormed then
    match l with
    | ⟨.HALT, []⟩ => some .halt
    | ⟨.CLS, []⟩ => some .cls
    | ⟨.RET, []⟩ => some .ret
    | ⟨.JMP, [.num a]⟩ => some (.jmp (BitVec.ofNat 12 a))
    | ⟨.CALL, [.num a]⟩ => some (.call (BitVec.ofNat 12 a))
    | ⟨.SE, [.reg x, .num k]⟩ => some (.seImm (BitVec.ofNat 4 x) (BitVec.ofNat 8 k))
    | ⟨.SNE, [.reg x, .num k]⟩ => some (.sneImm (BitVec.ofNat 4 x) (BitVec.ofNat 8 k))
    | ⟨.SE, [.reg x, .reg y]⟩ => some (.seReg (BitVec.ofNat 4 x) (BitVec.ofNat 4 y))
    | ⟨.LD, [.reg x, .num k]⟩ => some (.ldImm (BitVec.ofNat 4 x) (BitVec.ofNat 8 k))
    | ⟨.ADD, [.reg x, .num k]⟩ => some (.addImm (BitVec.ofNat 4 x) (BitVec.ofNat 8 k))
    | ⟨.LD, [.reg x, .reg y]⟩ => some (.ldReg (BitVec.ofNat 4 x) (BitVec.ofNat 4 y))
    | ⟨.OR, [.reg x, .reg y]⟩ => some (.or (BitVec.ofNat 4 x) (BitVec.ofNat 4 y))
    | ⟨.AND, [.reg x, .reg y]⟩ => some (.and (BitVec.ofNat 4 x) (BitVec.ofNat 4 y))
    | ⟨.XOR, [.reg x, .reg y]⟩ => some (.xor (BitVec.ofNat 4 x) (BitVec.ofNat 4 y))
    | ⟨.ADD, [.reg x, .reg y]⟩ => some (.addReg (BitVec.ofNat 4 x) (BitVec.ofNat 4 y))
    | _ => none
  else none

/-- The written form of an instruction (R70). -/
def Instr.toAsm : Instr → AsmLine
  | .halt => ⟨.HALT, []⟩
  | .cls => ⟨.CLS, []⟩
  | .ret => ⟨.RET, []⟩
  | .jmp a => ⟨.JMP, [.num a.toNat]⟩
  | .call a => ⟨.CALL, [.num a.toNat]⟩
  | .seImm x k => ⟨.SE, [.reg x.toNat, .num k.toNat]⟩
  | .sneImm x k => ⟨.SNE, [.reg x.toNat, .num k.toNat]⟩
  | .seReg x y => ⟨.SE, [.reg x.toNat, .reg y.toNat]⟩
  | .ldImm x k => ⟨.LD, [.reg x.toNat, .num k.toNat]⟩
  | .addImm x k => ⟨.ADD, [.reg x.toNat, .num k.toNat]⟩
  | .ldReg x y => ⟨.LD, [.reg x.toNat, .reg y.toNat]⟩
  | .or x y => ⟨.OR, [.reg x.toNat, .reg y.toNat]⟩
  | .and x y => ⟨.AND, [.reg x.toNat, .reg y.toNat]⟩
  | .xor x y => ⟨.XOR, [.reg x.toNat, .reg y.toNat]⟩
  | .addReg x y => ⟨.ADD, [.reg x.toNat, .reg y.toNat]⟩

/-- The value of a decimal digit. -/
def decDigit (c : Char) : Option Nat :=
  if '0'.toNat ≤ c.toNat ∧ c.toNat ≤ '9'.toNat then some (c.toNat - '0'.toNat) else none

/-- The value of a hexadecimal digit, in either case (DESIGN CHOICE, safe, log 18: R70 writes capitals). -/
def hexDigit (c : Char) : Option Nat :=
  if 'A'.toNat ≤ c.toNat ∧ c.toNat ≤ 'F'.toNat then some (c.toNat - 'A'.toNat + 10)
  else if 'a'.toNat ≤ c.toNat ∧ c.toNat ≤ 'f'.toNat then some (c.toNat - 'a'.toNat + 10)
  else decDigit c

/-- The number a row of digits writes in a base, most significant first; none if a character is no digit. -/
def digitsValue (base : Nat) (digit : Char → Option Nat) : Nat → List Char → Option Nat
  | acc, [] => some acc
  | acc, c :: cs =>
    match digit c with
    | some d => digitsValue base digit (acc * base + d) cs
    | none => none

/-- One written operand: `V` and one hex digit, a `0x` number or a decimal number (R70). A number may have any number of
leading zeros (DESIGN CHOICE, safe, log 18). -/
def parseArg : List Char → Option AsmArg
  | ['V', d] => (hexDigit d).map AsmArg.reg
  | '0' :: 'x' :: d :: ds => (digitsValue 16 hexDigit 0 (d :: ds)).map AsmArg.num
  | d :: ds => (digitsValue 10 decDigit 0 (d :: ds)).map AsmArg.num
  | [] => none

/-- A written mnemonic (R70). -/
def parseName : List Char → Option AsmName
  | ['H', 'A', 'L', 'T'] => some .HALT
  | ['C', 'L', 'S'] => some .CLS
  | ['R', 'E', 'T'] => some .RET
  | ['J', 'M', 'P'] => some .JMP
  | ['C', 'A', 'L', 'L'] => some .CALL
  | ['S', 'E'] => some .SE
  | ['S', 'N', 'E'] => some .SNE
  | ['L', 'D'] => some .LD
  | ['A', 'D', 'D'] => some .ADD
  | ['O', 'R'] => some .OR
  | ['A', 'N', 'D'] => some .AND
  | ['X', 'O', 'R'] => some .XOR
  | _ => none

/-- Cut a list of characters at every `sep`. -/
def splitAtChar (sep : Char) : List Char → List (List Char)
  | [] => [[]]
  | c :: cs =>
    if c = sep then [] :: splitAtChar sep cs
    else
      match splitAtChar sep cs with
      | t :: ts => (c :: t) :: ts
      | [] => [[c]]

/-- The characters that remain when every space is taken out, those INSIDE an operand too: `V 1` is read as `V1`, `0x3 C` as
`0x3C`, `1 2` as `12` (DESIGN CHOICE, safe, log 18: R70 writes a register as `V` followed by one hex digit and says nothing
of lines with such spaces). -/
def dropSpaces (cs : List Char) : List Char := cs.filter (fun c => c ≠ ' ')

/-- Read one line of R70's syntax: the mnemonic up to the first space, then operands separated by commas. After the mnemonic no
space counts, around an operand or inside one, so that `LD V 1, 0x3 C` and `ADD V1, 1 2` are read as `LD V1, 0x3C` and
`ADD V1, 12`; a line that begins with a space is refused (DESIGN CHOICE, safe, log 18: R70 shows one space after the mnemonic
and one after the comma and says nothing of other lines). -/
def parseLine (cs : List Char) : Option AsmLine :=
  let name := cs.takeWhile (fun c => c ≠ ' ')
  let rest := dropSpaces (cs.dropWhile (fun c => c ≠ ' '))
  match parseName name with
  | none => none
  | some nm =>
    match rest with
    | [] => some ⟨nm, []⟩
    | _ => ((splitAtChar ',' rest).mapM parseArg).map (AsmLine.mk nm)

/-- The word a written line stands for (R70). -/
def assemble (line : String) : Option Word :=
  ((parseLine line.toList).bind AsmLine.toInstr).map encode

end Sys2Proof
end

