-- ==== Sys2Proof/Machine/State.lean ====
section
/-! DEFINITION. The state of the engine: the six items of spec/10_state.md R20 and nothing else, as plain data; the reasons a
step can stop; the state after reset (R36). -/

namespace Sys2Proof.Machine

/-- The four fatal conditions with what each records (60_exceptions.md R110, R116). An instruction or a fetch that meets one
TAKES it: the next state has `status = faulted f` (R115; log 3). As an outcome of `step` the same names say that the engine
is dead: a step asked for while `status = faulted f` answers `.fault f` and has no next state (R118; DEDUCED, safe, log 1). -/
inductive Fault where
  /-- CALL with `sp = 16` (R111). As an outcome: raised by `step` in a state that has recorded it; safe. -/
  | stackOverflow
  /-- RET with `sp = 0` (R112). As an outcome: raised by `step` in a state that has recorded it; safe. -/
  | stackUnderflow
  /-- A fetched word outside the dispatch table, with that word (R113). As an outcome: raised by `step` in a state that has
  recorded it; safe. -/
  | unimplementedOpcode (w : Word)
  /-- A step begun with `pc > 4094` (R114). As an outcome: raised by `step` in a state that has recorded it; safe. -/
  | fetchOutOfBounds
deriving DecidableEq, Repr

/-- What the model gives no behaviour to. No instruction of the table is refused in a state of the machine. -/
inductive Refusal where
  /-- An instruction that has no meaning yet: raised by `exec` in a refused arm (there is none); safe. -/
  | notModelled (mnemonic : String)
  /-- `sp` holds 17 to 31, "not a state of this machine" (70_reset_and_hazards.md R143, 93 U6): raised by `step`, by the CALL
  and RET handlers, and by the host's write of `sp` and its run command; safe (log 2). -/
  | spOutOfRange
  /-- The host reads or writes state while `status = running`, a move it does not have (R146, 93 U7): raised by `hostStep`;
  safe (log 7). -/
  | hostAccessWhileRunning
deriving DecidableEq, Repr

/-- The run status (10_state.md R33). -/
inductive Status where
  /-- idle: after reset, or after a HALT instruction -/
  | halted
  /-- the engine takes steps -/
  | running
  /-- a fatal condition stopped the run; its record -/
  | faulted (f : Fault)
deriving DecidableEq, Repr

/-- The 4096 bytes of `mem` (20_memory.md R40), as the cells that do not hold 0x00, addresses strictly rising
(`Memory.wf` in Machine/Memory.lean; log 8). -/
abbrev Memory := List Host.Cell

/-- The complete architectural state (10_state.md R20), under the spec's names. -/
structure State where
  /-- memory (R35) -/
  mem : Memory
  /-- the program counter (R25) -/
  pc : Word
  /-- the 16 general registers (R21) -/
  V : Vector Byte 16
  /-- the 16 call-stack slots (R30) -/
  stack : Vector Word 16
  /-- the stack pointer: the number of return addresses held (R31) -/
  sp : StackPtr
  /-- the run status (R33) -/
  status : Status
deriving DecidableEq, Repr

/-- The machine right after reset (10_state.md R36, 70_reset_and_hazards.md R140): everything zero, `status = Halted`. -/
def State.reset : State where
  mem := []
  pc := 0x0000#16
  V := Vector.replicate 16 0x00#8
  stack := Vector.replicate 16 0x0000#16
  sp := 0#5
  status := .halted

end Sys2Proof.Machine
end

