-- ==== Sys2Proof/Machine/Memory.lean ====
section
/-! DEFINITION. Memory: the canonical form, reading and writing one byte, and the one access the engine makes, a 16-bit
big-endian read (spec/20_memory.md R40 to R45). -/

namespace Sys2Proof.Machine

/-- The form of the cells from address `lo` on: addresses strictly rising and below 4096, no cell at the reset value. -/
def Memory.wfFrom : Nat → Memory → Bool
  | _, [] => true
  | lo, (a, v) :: m => decide (lo ≤ a ∧ a < Config.memSize ∧ v ≠ Config.resetByte) && Memory.wfFrom (a + 1) m

/-- The canonical form of memory: equal memories are equal lists (log 8). -/
def Memory.wf (m : Memory) : Bool := Memory.wfFrom 0 m

/-- The byte listed for an address, or what an unlisted address reads as: 0x00, the reset value (10_state.md R36). -/
def Memory.lookup : Memory → Nat → Byte
  | [], _ => Config.resetByte
  | (b, v) :: m, a => if b = a then v else Memory.lookup m a

/-- `mem[a]`: there is a byte at the addresses 0 to 4095 and nowhere else (20_memory.md R40). -/
def Memory.read (m : Memory) (a : Nat) : Option Byte :=
  if a < Config.memSize then some (Memory.lookup m a) else none

/-- Put a byte at an address of the list; the reset value is kept by not listing the address. -/
def Memory.insert : Memory → Nat → Byte → Memory
  | [], a, v => if v = Config.resetByte then [] else [(a, v)]
  | (b, u) :: m, a, v =>
    if a < b then (if v = Config.resetByte then (b, u) :: m else (a, v) :: (b, u) :: m)
    else if a = b then (if v = Config.resetByte then m else (a, v) :: m)
    else (b, u) :: Memory.insert m a v

/-- `mem[a] <- v`. Only the host writes memory (20_memory.md R41); a 12-bit address is always an address of `mem`. -/
def Memory.write (m : Memory) (a : Addr) (v : Byte) : Memory := Memory.insert m a.toNat v

/-- `MemRead(a, 2)` (00_scope.md R9): the bytes `mem[a]` and `mem[a + 1]`, big-endian (20_memory.md R42); none unless both
exist, the sum taken without wrap-around (R44). The order of the two reads cannot be observed (R45; log 10). -/
def Memory.read16 (m : Memory) (a : Nat) : Option Word :=
  match Memory.read m a, Memory.read m (a + 1) with
  | some hi, some lo => some (wordOfBytes hi lo)
  | _, _ => none

end Sys2Proof.Machine
end

