-- ==== Sys2Proof/Machine/Ops.lean ====
section
/-! DEFINITION. The named operations on the state: one accessor and one update per item, the advance of `pc`, the call
stack, halting, and TAKING A FAULT (spec/00_scope.md R9, 60_exceptions.md R115). There is no return from a fault (60 R118,
R119): the only way out is the host's reset (Machine/Launch.lean). -/

namespace Sys2Proof.Machine

/-- `V[i]` (10_state.md R21): a 4-bit index is always in range. -/
def State.reg (s : State) (i : RegIdx) : Byte := s.V[i.toNat]'i.isLt

/-- `V[i] <- v`. No register is hard-wired and none aliases another (10_state.md R21, R22). -/
def State.setReg (s : State) (i : RegIdx) (v : Byte) : State := { s with V := s.V.set i.toNat v i.isLt }

/-- `stack[k]` (10_state.md R30). -/
def State.slot (s : State) (k : SlotIdx) : Word := s.stack[k.toNat]'k.isLt

/-- `stack[k] <- v` (10_state.md R30). -/
def State.setSlot (s : State) (k : SlotIdx) (v : Word) : State := { s with stack := s.stack.set k.toNat v k.isLt }

/-- `pc <- t`. -/
def State.setPc (s : State) (t : Word) : State := { s with pc := t }

/-- `sp <- v`. -/
def State.setSp (s : State) (v : StackPtr) : State := { s with sp := v }

/-- `status <- st` (10_state.md R33). -/
def State.setStatus (s : State) (st : Status) : State := { s with status := st }

/-- A new memory image. Only the host's operations use it (20_memory.md R41). -/
def State.setMem (s : State) (m : Memory) : State := { s with mem := m }

/-- `sp` is legal, 0 to 16 (10_state.md R31). The encodings 17 to 31 are no state of the machine (70 R143; log 2). -/
def State.spLegal (s : State) : Bool := decide (s.sp.toNat ≤ Config.stackDepth)

/-- The advance of every fetched word, `pc <- pc + 2` (40_fetch_dispatch.md R83). -/
def State.advancePc (s : State) : State := s.setPc (s.pc + 2#16)

/-- A taken skip: another `pc <- pc + 2`; the skipped bytes are not looked at (40_fetch_dispatch.md R88). -/
def State.skipNext (s : State) : State := s.setPc (s.pc + 2#16)

/-- A skip under a condition: when it is false the handler does nothing (40_fetch_dispatch.md R88). -/
def State.skipIf (s : State) (c : Bool) : State := if c then s.skipNext else s

/-- `halt`: `status <- Halted`, nothing else (41_system.md R90). -/
def State.halt (s : State) : State := s.setStatus .halted

/-- TAKING A FAULT, `raise F(info)`: `status <- Faulted(F, info)` and nothing else; no handler, no vector, no saved `pc`
(60_exceptions.md R115). -/
def State.raise (s : State) (f : Fault) : State := s.setStatus (.faulted f)

/-- The slot a stack pointer below 16 names. -/
def slotIdx (p : StackPtr) : SlotIdx := p.setWidth 4

/-- `stack[sp] <- v`, then `sp <- sp + 1`; none when the slot does not exist (42_control_transfer.md R94). -/
def State.push (s : State) (v : Word) : Option State :=
  if s.sp.toNat < Config.stackDepth then some ((s.setSlot (slotIdx s.sp) v).setSp (s.sp + 1#5)) else none

/-- `sp <- sp - 1`, then the slot at the new `sp` is read and keeps its value (42_control_transfer.md R92; 92 D5, UNVERIFIED,
unsafe, log 13); none when there is no such slot. -/
def State.pop (s : State) : Option (Word × State) :=
  if 0 < s.sp.toNat ∧ s.sp.toNat ≤ Config.stackDepth then
    some (s.slot (slotIdx (s.sp - 1#5)), s.setSp (s.sp - 1#5))
  else none

/-- The fetch: the 16-bit word at `pc`, or none when it is out of bounds. The whole `pc` is the address, never truncated or
wrapped; no alignment (40_fetch_dispatch.md R81, 20_memory.md R43, R44). -/
def State.fetch (s : State) : Option Word := Memory.read16 s.mem s.pc.toNat

end Sys2Proof.Machine
end

