-- ==== Sys2Proof/Machine/Operands.lean ====
section
/-! DEFINITION. The operand forms (spec/30_encoding.md R64): register value, immediate, absolute target. -/

namespace Sys2Proof.Machine

/-- A register operand: the value held in the register, never its index (R64, 43_skip.md R99). -/
def regValue (s : State) (i : RegIdx) : Byte := s.reg i

/-- The immediate `kk`, used as it stands: no extension, shift or scaling (R64). -/
def immValue (kk : Byte) : Byte := kk

/-- The target of JMP and CALL, `zext_16(addr)`: absolute, unscaled (R64). -/
def targetAddr (addr : Addr) : Word := addr.setWidth 16

end Sys2Proof.Machine
end

