-- ==== Sys2Proof/Machine/Flags.lean ====
section
/-! DEFINITION. The engine has no flags, condition codes or predicates (spec/10_state.md R29): the skips test values
directly, and those two tests stand here. -/

namespace Sys2Proof.Machine

/-- `a == b` on all 8 bits (45_alu_reg.md R107). -/
def testEq (a b : Byte) : Bool := a == b

/-- `a != b` on all 8 bits (45_alu_reg.md R107). -/
def testNe (a b : Byte) : Bool := a != b

end Sys2Proof.Machine
end

