-- ==== Sys2Proof/Machine/Alu.lean ====
section
/-! DEFINITION. The arithmetic and logic of the engine (spec/45_alu_reg.md R107). -/

namespace Sys2Proof.Machine

/-- `(a + b) mod 256`: the sum is formed exactly, then its low 8 bits are kept; no carry is recorded (R107). -/
def aluAdd (a b : Byte) : Byte := BitVec.ofNat 8 (a.toNat + b.toNat)

/-- `a | b` on each bit (R103). -/
def aluOr (a b : Byte) : Byte := a ||| b

/-- `a & b` on each bit (R104). -/
def aluAnd (a b : Byte) : Byte := a &&& b

/-- `a ^ b` on each bit (R105). -/
def aluXor (a b : Byte) : Byte := a ^^^ b

end Sys2Proof.Machine
end

