-- ==== Sys2Proof/Machine/AluReg.lean ====
section
/-! DEFINITION. The register-register group (spec/45_alu_reg.md). Both operands are read from the state before the write
(R108), and `V[x]` is all that is written. -/

namespace Sys2Proof.Machine

/-- LD reg (R102): `V[x] <- V[y]`. -/
def execLdReg (x y : RegIdx) (s : State) : Host.Outcome State Fault Refusal :=
  .next (s.setReg x (regValue s y))

/-- OR (R103): `V[x] <- V[x] | V[y]`. -/
def execOr (x y : RegIdx) (s : State) : Host.Outcome State Fault Refusal :=
  .next (s.setReg x (aluOr (regValue s x) (regValue s y)))

/-- AND (R104): `V[x] <- V[x] & V[y]`. -/
def execAnd (x y : RegIdx) (s : State) : Host.Outcome State Fault Refusal :=
  .next (s.setReg x (aluAnd (regValue s x) (regValue s y)))

/-- XOR (R105): `V[x] <- V[x] ^ V[y]`. -/
def execXor (x y : RegIdx) (s : State) : Host.Outcome State Fault Refusal :=
  .next (s.setReg x (aluXor (regValue s x) (regValue s y)))

/-- ADD reg (R106): `V[x] <- (V[x] + V[y]) mod 256`; no carry anywhere. -/
def execAddReg (x y : RegIdx) (s : State) : Host.Outcome State Fault Refusal :=
  .next (s.setReg x (aluAdd (regValue s x) (regValue s y)))

end Sys2Proof.Machine
end

