-- ==== Sys2Proof/Machine/Control.lean ====
section
/-! DEFINITION. RET, JMP and CALL (spec/42_control_transfer.md). On entry `pc` is the instruction's address plus 2. -/

namespace Sys2Proof.Machine

/-- RET (R92): with `sp = 0` it takes StackUnderflow; otherwise it pops all 16 bits of the slot into `pc`. -/
def execRet (s : State) : Host.Outcome State Fault Refusal :=
  if s.sp = 0#5 then .next (s.raise .stackUnderflow)
  else
    match s.pop with
    | some (v, t) => .next (t.setPc v)
    | none => .refused .spOutOfRange

/-- JMP (R93): `pc <- zext_16(addr)`. -/
def execJmp (addr : Addr) (s : State) : Host.Outcome State Fault Refusal := .next (s.setPc (targetAddr addr))

/-- CALL (R94): with `sp = 16` it takes StackOverflow; otherwise it pushes the advanced `pc` and jumps. -/
def execCall (addr : Addr) (s : State) : Host.Outcome State Fault Refusal :=
  if s.sp = 16#5 then .next (s.raise .stackOverflow)
  else
    match s.push s.pc with
    | some t => .next (t.setPc (targetAddr addr))
    | none => .refused .spOutOfRange

end Sys2Proof.Machine
end

