-- ==== Sys2Proof/Machine/Immediate.lean ====
section
/-! DEFINITION. The register-immediate instructions (spec/44_immediate.md). -/

namespace Sys2Proof.Machine

/-- LD imm (R100): `V[x] <- kk`. -/
def execLdImm (x : RegIdx) (kk : Byte) (s : State) : Host.Outcome State Fault Refusal :=
  .next (s.setReg x (immValue kk))

/-- ADD imm (R101): `V[x] <- (V[x] + kk) mod 256`. -/
def execAddImm (x : RegIdx) (kk : Byte) (s : State) : Host.Outcome State Fault Refusal :=
  .next (s.setReg x (aluAdd (regValue s x) (immValue kk)))

end Sys2Proof.Machine
end

