-- ==== Sys2Proof/Machine/Skip.lean ====
section
/-! DEFINITION. The skips (spec/43_skip.md). On entry `pc` is the instruction's address plus 2. -/

namespace Sys2Proof.Machine

/-- SE imm (R96): skip when the register's value equals the immediate. -/
def execSeImm (x : RegIdx) (kk : Byte) (s : State) : Host.Outcome State Fault Refusal :=
  .next (s.skipIf (testEq (regValue s x) (immValue kk)))

/-- SNE imm (R97): skip when the register's value differs from the immediate. -/
def execSneImm (x : RegIdx) (kk : Byte) (s : State) : Host.Outcome State Fault Refusal :=
  .next (s.skipIf (testNe (regValue s x) (immValue kk)))

/-- SE reg (R98): skip when the two registers hold equal values. -/
def execSeReg (x y : RegIdx) (s : State) : Host.Outcome State Fault Refusal :=
  .next (s.skipIf (testEq (regValue s x) (regValue s y)))

end Sys2Proof.Machine
end

