-- ==== Sys2Proof/Machine/System.lean ====
section
/-! DEFINITION. HALT and CLS (spec/41_system.md). On entry to every meaning `pc` is already the instruction's address plus 2
(40_fetch_dispatch.md R83). -/

namespace Sys2Proof.Machine

/-- HALT (R90): the run ends cleanly. `pc` keeps the advanced value (92 D15; UNVERIFIED, unsafe, log 12). -/
def execHalt (s : State) : Host.Outcome State Fault Refusal := .next s.halt

/-- CLS (R91): no effect. -/
def execCls (s : State) : Host.Outcome State Fault Refusal := .next s

end Sys2Proof.Machine
end

