-- ==== Sys2Proof/Machine/Cycle.lean ====
section
/-! DEFINITION. One step of the engine: bounds check, fetch, decode, advance, dispatch and execute, in that order
(spec/40_fetch_dispatch.md R80), and the placing of one instruction where the next step fetches it. -/

namespace Sys2Proof.Machine

/-- A fetched word: decoded, `pc` advanced, then dispatched. The advance has happened when a handler runs and when an illegal
word faults (R83, R84, 30_encoding.md R67; 92 D4, UNVERIFIED, unsafe, log 12). -/
def dispatchWord (w : Word) (s : State) : Host.Outcome State Fault Refusal :=
  match decodeWord w with
  | .ok i => exec i s.advancePc
  | .error _ => .next (s.advancePc.raise (.unimplementedOpcode w))

/-- A step taken while `status = running` (R80): an out-of-bounds fetch faults with `pc` unchanged (R81); `sp` above 16 is
no state of the machine and gets no run (70 R143; log 2). -/
def runningStep (s : State) : Host.Outcome State Fault Refusal :=
  if s.spLegal then
    match s.fetch with
    | some w => dispatchWord w s
    | none => .next (s.raise .fetchOutOfBounds)
  else .refused .spOutOfRange

/-- One turn of the engine. A step is taken only while `status = running` (R80). Halted: no step, all state kept (60 R129),
so the state is answered unchanged; faulted: no step and no way on (60 R118), so the recorded fault is answered
(DEDUCED, safe, log 1). -/
def cycle (s : State) : Host.Outcome State Fault Refusal :=
  match s.status with
  | .running => runningStep s
  | .halted => .next s
  | .faulted f => .fault f

/-- `pc` where a fetch is legal: kept if it is, else 0 (DESIGN CHOICE, safe, log 5). -/
def State.withLegalPc (s : State) : State := if s.pc.toNat ≤ Config.lastFetch then s else s.setPc 0#16

/-- `sp` legal: kept if it is, else 0 (DESIGN CHOICE, safe, log 5). -/
def State.withLegalSp (s : State) : State := if s.spLegal then s else s.setSp 0#5

/-- The host's launch of one instruction: its two bytes at `pc` and `pc + 1`, high byte first (70 R142, R149), then the run
command (70 R144). DESIGN CHOICE, safe, log 4 and log 5. -/
def State.placeWord (s : State) (w : Word) : State :=
  let t := s.withLegalPc.withLegalSp
  let a : Addr := t.pc.setWidth 12
  (t.setMem ((t.mem.write a (highByte w)).write (a + 1#12) (lowByte w))).setStatus .running

end Sys2Proof.Machine
end

