-- ==== Sys2Proof/Machine/Step.lean ====
section
/-! DEFINITION. The step of the machine, and a state with one instruction placed where it fetches next. -/

namespace Sys2Proof.Machine

/-- One step (spec/40_fetch_dispatch.md R80). -/
def step (s : State) : Host.Outcome State Fault Refusal := cycle s

/-- The state with the instruction of the given table bits stored where the next step fetches it, launched (log 4). -/
def State.withFetchWord (s : State) (nbits w : Nat) : State := s.placeWord (tableWord nbits w)

end Sys2Proof.Machine
end

