-- ==== Sys2Proof/Machine/Launch.lean ====
section
/-! DEFINITION. The host's five operations (spec/70_reset_and_hazards.md R140 to R148, R152). They are no part of `step`:
between two steps the host may make a move, and while the engine runs its only move is reset (R146; log 6). -/

namespace Sys2Proof.Machine

/-- The host's moves that can change the state (R152). Each write takes any value of its item's width (R142). -/
inductive HostOp where
  | reset
  | writeMem (a : Addr) (v : Byte)
  | writePc (v : Word)
  | writeReg (i : RegIdx) (v : Byte)
  | writeSlot (k : SlotIdx) (v : Word)
  | writeSp (v : StackPtr)
  | run
deriving DecidableEq, Repr

/-- A host write: allowed while `status` is not `Running` (R141), a move the host does not have otherwise (R146; log 7). -/
def hostWrite (s t : State) : Host.Outcome State Fault Refusal :=
  if s.status = .running then .refused .hostAccessWhileRunning else .next t

/-- The host's write of `sp`: 0 to 16 only (R143; log 2). -/
def hostWriteSp (v : StackPtr) (s : State) : Host.Outcome State Fault Refusal :=
  if v.toNat ≤ Config.stackDepth then hostWrite s (s.setSp v) else .refused .spOutOfRange

/-- The run command: effective only in `Halted`; in `Running` and `Faulted` it has no effect (R144; 92 D6, UNVERIFIED,
unsafe, log 17). A launch with `sp` above 16 is refused (R143; log 2). -/
def hostRun (s : State) : Host.Outcome State Fault Refusal :=
  match s.status with
  | .halted => if s.spLegal then .next (s.setStatus .running) else .refused .spOutOfRange
  | .running => .next s
  | .faulted _ => .next s

/-- One move of the host (R152). Reset is allowed always and gives the reset state (R140). -/
def hostStep (op : HostOp) (s : State) : Host.Outcome State Fault Refusal :=
  match op with
  | .reset => .next State.reset
  | .writeMem a v => hostWrite s (s.setMem (s.mem.write a v))
  | .writePc v => hostWrite s (s.setPc v)
  | .writeReg i v => hostWrite s (s.setReg i v)
  | .writeSlot k v => hostWrite s (s.setSlot k v)
  | .writeSp v => hostWriteSp v s
  | .run => hostRun s

/-- What the host reads: every piece of state while `status` is not `Running`, with no side effect (R145); nothing during a
run (R146). -/
def hostInspect (s : State) : Option State := if s.status = .running then none else some s

end Sys2Proof.Machine
end

