-- ==== Sys2Proof/Safety.lean ====
section
/-! DEFINITION. The terms the claims are made in: what a state keeps, which registers an instruction reads and writes, the
invariants, how a run ends (spec/70_reset_and_hazards.md R147). -/

namespace Sys2Proof.Machine

/-- Every general register but `x` holds in `t` what it holds in `s`. -/
def SameRegsBut (x : RegIdx) (s t : State) : Prop := ∀ j : RegIdx, j ≠ x → t.reg j = s.reg j

/-- Every general register holds in `t` what it holds in `s`. -/
def SameRegs (s t : State) : Prop := ∀ j : RegIdx, t.reg j = s.reg j

/-- Every call-stack slot holds in `t` what it holds in `s`. -/
def SameSlots (s t : State) : Prop := ∀ k : SlotIdx, t.slot k = s.slot k

/-- The call stack is the same: the pointer and every slot. -/
def SameStack (s t : State) : Prop := t.sp = s.sp ∧ SameSlots s t

/-- Every address reads in `t` what it reads in `s`: a byte, or no byte where none exists. -/
def SameMem (s t : State) : Prop := ∀ a : Nat, t.mem.read a = s.mem.read a

/-- The engine is running in a state of the machine and `w` is the word its next step fetches. -/
def AtWord (s : State) (w : Word) : Prop := s.status = .running ∧ s.sp.toNat ≤ 16 ∧ s.fetch = some w

/-- The general register an instruction writes (10_state.md R23). -/
def destReg : Instr → Option RegIdx
  | .halt | .cls | .ret | .jmp _ | .call _ => none
  | .seImm _ _ | .sneImm _ _ | .seReg _ _ => none
  | .ldImm x _ | .addImm x _ => some x
  | .ldReg x _ | .or x _ | .and x _ | .xor x _ | .addReg x _ => some x

/-- The general registers an instruction reads (10_state.md R23). -/
def readRegs : Instr → List RegIdx
  | .halt | .cls | .ret | .jmp _ | .call _ => []
  | .seImm x _ | .sneImm x _ => [x]
  | .seReg x y => [x, y]
  | .ldImm _ _ => []
  | .addImm x _ => [x]
  | .ldReg _ y => [y]
  | .or x y | .and x y | .xor x y | .addReg x y => [x, y]

/-- The invariant of every state of the machine: memory in its canonical form, `0 ≤ sp ≤ 16` (10_state.md R31). -/
def State.Inv (s : State) : Prop := Memory.wf s.mem = true ∧ s.sp.toNat ≤ 16

/-- What a program alone can put in `pc` and in the slots (10_state.md R28, 92 D1): a return address is at most 4096, `pc`
at most 4098. A host that loads larger values leaves this invariant; the engine does not. -/
def State.PcBounded (s : State) : Prop := s.pc.toNat ≤ 4098 ∧ ∀ k : SlotIdx, (s.slot k).toNat ≤ 4096

/-- Every state that reset, steps and host moves lead to. -/
inductive Reachable : State → Prop where
  | reset : Reachable State.reset
  | step (s t : State) : Reachable s → step s = .next t → Reachable t
  | host (s t : State) (op : HostOp) : Reachable s → hostStep op s = .next t → Reachable t

/-- Steps that never bring `sp` below `d`: what runs between a CALL and its RET (42_control_transfer.md R95). -/
inductive StepsAbove (d : Nat) : State → State → Prop where
  | refl (s : State) : StepsAbove d s s
  | tail (s u v : State) : StepsAbove d s u → step u = .next v → d ≤ v.sp.toNat → StepsAbove d s v

/-- The run ends cleanly: after some number of steps `status` is `Halted` (70 R147). -/
def EndsHalted (s : State) : Prop := ∃ k t, Host.Core.run core k s = .next t ∧ t.status = .halted

/-- The run ends in a fault: after some number of steps `status` is `Faulted` with this record (70 R147, 60 R120). -/
def EndsFaulted (s : State) (f : Fault) : Prop := ∃ k t, Host.Core.run core k s = .next t ∧ t.status = .faulted f

/-- The run does not end: after any number of steps the engine is still running (40_fetch_dispatch.md R85, 93 U5). -/
def NeverEnds (s : State) : Prop := ∀ k, ∃ t, Host.Core.run core k s = .next t ∧ t.status = .running

/-- The `pc` a step leaves when it runs instruction `i` from state `s`, as the table of 10_state.md R26 gives it, computed
without wrapping; the two faulting cases stand on decision D4 (92_eei_decisions.md). -/
def pcAfter (i : Instr) (s : State) : Nat :=
  match i with
  | .halt | .cls | .ldImm _ _ | .addImm _ _ => s.pc.toNat + 2
  | .ldReg _ _ | .or _ _ | .and _ _ | .xor _ _ | .addReg _ _ => s.pc.toNat + 2
  | .seImm x kk => if s.reg x = kk then s.pc.toNat + 4 else s.pc.toNat + 2
  | .sneImm x kk => if s.reg x ≠ kk then s.pc.toNat + 4 else s.pc.toNat + 2
  | .seReg x y => if s.reg x = s.reg y then s.pc.toNat + 4 else s.pc.toNat + 2
  | .jmp addr => addr.toNat
  | .call addr => if s.sp.toNat = 16 then s.pc.toNat + 2 else addr.toNat
  | .ret => if s.sp.toNat = 0 then s.pc.toNat + 2 else (s.slot (BitVec.ofNat 4 (s.sp.toNat - 1))).toNat

/-- The condition of each fault, seen at the start of the step that takes it (60_exceptions.md R110 to R114, R117). -/
def FaultCause (s : State) (f : Fault) : Prop :=
  match f with
  | .fetchOutOfBounds => 4094 < s.pc.toNat
  | .unimplementedOpcode w => s.fetch = some w ∧ decodeWord w = .error (.unimplementedOpcode w)
  | .stackOverflow => s.sp.toNat = 16 ∧ ∃ w, s.fetch = some w ∧ fieldOp w = 0x2#4
  | .stackUnderflow => s.sp.toNat = 0 ∧ s.fetch = some 0x00EE#16

/-- The code of a fault kind; a label no rule depends on (60_exceptions.md R110, 92 D7; UNVERIFIED, safe, log 9). -/
def faultCode : Fault → Nat
  | .stackOverflow => 1
  | .stackUnderflow => 2
  | .unimplementedOpcode _ => 3
  | .fetchOutOfBounds => 4

/-- The address of the instruction that faulted, found from `pc` (60_exceptions.md R116). -/
def faultAddr (f : Fault) (pc : Word) : Word :=
  match f with
  | .fetchOutOfBounds => pc
  | .stackOverflow | .stackUnderflow | .unimplementedOpcode _ => pc - 2#16

end Sys2Proof.Machine
end

