-- ==== Sys2Proof/Certificates/Slice0/Obligations.lean ====
section
/-! DEFINITION. The statements for the provers, from the numbered rules of spec/. In a statement about `exec`, `s.pc` is the
advanced `pc`, the instruction's address plus 2 (40_fetch_dispatch.md R83); `StepRunsDecodedInstruction` ties `exec` to
`step`. -/

open Sys2Proof Sys2Proof.Machine

/-! ### Encoding -/

/-- A few words written out from R66 decode to their instructions: one of each family, one of each format. -/
def Obligations.WordExamples : Prop :=
  decodeWord 0x0000#16 = .ok .halt ∧ decodeWord 0x2100#16 = .ok (.call 0x100#12) ∧
  decodeWord 0x3A7B#16 = .ok (.seImm 0xA#4 0x7B#8) ∧ decodeWord 0x5CD0#16 = .ok (.seReg 0xC#4 0xD#4) ∧
  decodeWord 0x72FF#16 = .ok (.addImm 0x2#4 0xFF#8) ∧ decodeWord 0x8EF3#16 = .ok (.xor 0xE#4 0xF#4) ∧
  decodeWord 0x9000#16 = .error (.unimplementedOpcode 0x9000#16)

/-- Every instruction is read back from its own two bytes, whatever follows them (R60 to R66). -/
def Obligations.DecodeEncode : Prop :=
  ∀ (i : Instr) (rest : List Byte), decode (encodeBytes i ++ rest) = .ok (i, rest)

/-- Every word that decodes is the encoding of the instruction it decodes to: no bit of a word is ignored (R68). -/
def Obligations.EncodeDecode : Prop :=
  ∀ (w : Word) (i : Instr), decodeWord w = .ok i → encode i = w

/-- The words that decode to nothing are exactly the four sets of R67 (the extent of two of them is decision D8). -/
def Obligations.IllegalWordsExactly : Prop :=
  ∀ w : Word, decodeWord w = .error (.unimplementedOpcode w) ↔
    (fieldOp w = 0x0#4 ∧ w ≠ 0x0000#16 ∧ w ≠ 0x00E0#16 ∧ w ≠ 0x00EE#16) ∨
    (fieldOp w = 0x5#4 ∧ fieldN w ≠ 0x0#4) ∨
    (fieldOp w = 0x8#4 ∧ 5 ≤ (fieldN w).toNat) ∨
    9 ≤ (fieldOp w).toNat

/-- The dispatcher of R65 and the map of R66 agree: a word under a row's mask equals the row's match exactly when it decodes
to an instruction of the row's mnemonic, and no word matches two rows (the mask of SE_reg is decision D8). -/
def Obligations.DispatcherAgreesWithOpcodeMap : Prop :=
  (∀ (w : Word) (r : OpRow), r ∈ opcodeTable →
    (r.matches w = true ↔ ∃ i, decodeWord w = .ok i ∧ i.mnemonic = r.mnemonic)) ∧
  (∀ (w : Word) (i : Instr), decodeWord w = .ok i → ∃ r ∈ opcodeTable, r.matches w = true ∧ r.mnemonic = i.mnemonic) ∧
  (∀ (w : Word) (r r' : OpRow), r ∈ opcodeTable → r' ∈ opcodeTable → r.matches w = true → r'.matches w = true → r = r')

/-- The six fields are the source's masks and shifts for every word (R62), and a word is its two bytes, high byte first
(R61). The name `op` is the spec's (D19). -/
def Obligations.FieldsAreMasks : Prop :=
  ∀ w : Word,
    (fieldX w).toNat = ((w &&& 0x0F00#16) >>> 8).toNat ∧ (fieldY w).toNat = ((w &&& 0x00F0#16) >>> 4).toNat ∧
    (fieldKk w).toNat = (w &&& 0x00FF#16).toNat ∧ (fieldN w).toNat = (w &&& 0x000F#16).toNat ∧
    (fieldAddr w).toNat = (w &&& 0x0FFF#16).toNat ∧ (fieldOp w).toNat = ((w &&& 0xF000#16) >>> 12).toNat ∧
    (highByte w).toNat * 256 + (lowByte w).toNat = w.toNat

/-- The assembly syntax (R70, decision D13): a written line stands for an instruction exactly when it is well formed, the
instruction written back is the line, and every instruction can be written. -/
def Obligations.AssemblyAgreesWithWellFormed : Prop :=
  (∀ l : AsmLine, l.wellFormed = true ↔ ∃ i, l.toInstr = some i) ∧
  (∀ (l : AsmLine) (i : Instr), l.toInstr = some i → i.toAsm = l) ∧
  (∀ i : Instr, i.toAsm.wellFormed = true ∧ i.toAsm.toInstr = some i)

/-! ### The step -/

/-- A STEP RUNS THE DECODED INSTRUCTION. When the two bytes at `pc`, high byte first, decode to `i`, the step of a running
engine is the handler of `i` in the state whose `pc` has been advanced by 2 and which is otherwise the same. -/
def Obligations.StepRunsDecodedInstruction : Prop :=
  ∀ (s : State) (hi lo : Byte) (rest : List Byte) (i : Instr),
    s.status = .running → s.sp.toNat ≤ 16 →
    s.mem.read s.pc.toNat = some hi → s.mem.read (s.pc.toNat + 1) = some lo → decode (hi :: lo :: rest) = .ok (i, rest) →
    step s = exec i s.advancePc ∧ s.advancePc = { s with pc := s.pc + 2#16 } ∧
      s.advancePc.pc.toNat = s.pc.toNat + 2

/-- A fetch answers exactly when `pc ≤ 4094`, at odd addresses too, and its word has `mem[pc]` in bits 15 to 8 and
`mem[pc + 1]` in bits 7 to 0 (R42 to R44; the bound's form is decision D16, the lack of alignment D9). -/
def Obligations.FetchIsBoundedBigEndian : Prop :=
  ∀ s : State,
    (s.fetch = none ↔ 4094 < s.pc.toNat) ∧
    ∀ w, s.fetch = some w ↔
      ∃ hi lo, s.mem.read s.pc.toNat = some hi ∧ s.mem.read (s.pc.toNat + 1) = some lo ∧
        w.toNat = hi.toNat * 256 + lo.toNat

/-- A step begun past 4094 takes FetchOutOfBounds and changes nothing else, `pc` included (R81, R114; the kind is decision
D3, the unchanged `pc` D4). -/
def Obligations.FetchOutOfBoundsFaults : Prop :=
  ∀ s : State, s.status = .running → s.sp.toNat ≤ 16 → 4094 < s.pc.toNat →
    ∃ t, step s = .next t ∧ t.status = .faulted .fetchOutOfBounds ∧ t.pc = s.pc ∧ SameRegs s t ∧ SameStack s t ∧ SameMem s t

/-- An illegal word that is fetched takes UnimplementedOpcode with that word; `pc` is two past it (decision D4) and nothing
else changes (R67, R113). -/
def Obligations.IllegalWordFaults : Prop :=
  ∀ (s : State) (w : Word), AtWord s w → (∀ i, decodeWord w ≠ .ok i) →
    ∃ t, step s = .next t ∧ t.status = .faulted (.unimplementedOpcode w) ∧ t.pc.toNat = s.pc.toNat + 2 ∧
      SameRegs s t ∧ SameStack s t ∧ SameMem s t

/-- While halted the engine keeps all its state; the model says so by a step to the same state (the model's choice, log 1;
60_exceptions.md R129). -/
def Obligations.HaltedEngineIdles : Prop :=
  ∀ s : State, s.status = .halted → step s = .next s

/-- While faulted there is no step: the model answers the recorded fault (the model's choice, log 1). The run command leaves
the state as it is, and no move of the host but reset leads out of the recorded fault (60_exceptions.md R118, decision D6). -/
def Obligations.FaultedIsTerminal : Prop :=
  ∀ (s : State) (f : Fault), s.status = .faulted f →
    step s = .fault f ∧ hostStep .run s = .next s ∧
    ∀ op t, hostStep op s = .next t → t.status = .faulted f ∨ (op = .reset ∧ t = State.reset)

/-- A running engine always has a next state. That state is halted exactly when the word was HALT, and faulted with `f`
exactly when the condition of `f` held: at most one fault a step, and no other cause of either (R85, R110, R117; `status` as
a piece of state is decision D6). -/
def Obligations.StatusAfterStep : Prop :=
  ∀ s : State, s.status = .running → s.sp.toNat ≤ 16 →
    ∃ t, step s = .next t ∧ (t.status = .halted ↔ s.fetch = some 0x0000#16) ∧
      (∀ f, t.status = .faulted f ↔ FaultCause s f) ∧
      (∀ f g, FaultCause s f → FaultCause s g → f = g)

/-- Faults are precise: the step that takes one leaves the registers, the slots, `sp` and memory as they were, and `pc` from
which the faulting address is found (R115, R116; the value of `pc` is decision D4). -/
def Obligations.FaultsArePrecise : Prop :=
  ∀ (s t : State) (f : Fault), s.status = .running → step s = .next t → t.status = .faulted f →
    SameRegs s t ∧ SameStack s t ∧ SameMem s t ∧ faultAddr f t.pc = s.pc

/-- Every legal instruction leaves `pc` as the table of R26 says, with no wrap-around (two faulting rows: decision D4; HALT:
D15). -/
def Obligations.PcAfterStep : Prop :=
  ∀ (s : State) (w : Word) (i : Instr), AtWord s w → decodeWord w = .ok i →
    ∃ t, step s = .next t ∧ t.pc.toNat = pcAfter i s

/-! ### System and control transfer -/

/-- HALT: the exact word `0x0000`; the run ends, nothing else changes, `pc` keeps the advanced value (decision D15). -/
def Obligations.HaltStopsTheRun : Prop :=
  decodeWord 0x0000#16 = .ok .halt ∧
  ∀ s : State, ∃ t, exec .halt s = .next t ∧ t.status = .halted ∧ t.pc = s.pc ∧ SameRegs s t ∧ SameStack s t ∧ SameMem s t

/-- CLS: the exact word `0x00E0`; apart from the advance of `pc` no state is written, by the handler or by the step. -/
def Obligations.ClsHasNoEffect : Prop :=
  decodeWord 0x00E0#16 = .ok .cls ∧
  (∀ s : State, ∃ t, exec .cls s = .next t ∧ t.pc = s.pc ∧ t.status = s.status ∧ SameRegs s t ∧ SameStack s t ∧ SameMem s t) ∧
  (∀ s : State, AtWord s 0x00E0#16 →
    ∃ t, step s = .next t ∧ t.pc.toNat = s.pc.toNat + 2 ∧ t.status = .running ∧ SameRegs s t ∧ SameStack s t ∧ SameMem s t)

/-- JMP: `pc` becomes the zero-extended address; nothing else is written. -/
def Obligations.JmpSetsPc : Prop :=
  (∀ w : Word, fieldOp w = 0x1#4 → decodeWord w = .ok (.jmp (fieldAddr w))) ∧
  ∀ (addr : Addr) (s : State), ∃ t, exec (.jmp addr) s = .next t ∧ t.pc.toNat = addr.toNat ∧
    SameRegs s t ∧ SameStack s t ∧ SameMem s t ∧ t.status = s.status

/-- CALL with a free slot: the advanced `pc` goes to slot `sp`, `sp` counts up, `pc` becomes the address; no other slot,
register or byte changes (R94; the 5 bits of `sp` are decision D2). -/
def Obligations.CallPushesAndJumps : Prop :=
  (∀ w : Word, fieldOp w = 0x2#4 → decodeWord w = .ok (.call (fieldAddr w))) ∧
  ∀ (addr : Addr) (s : State), s.sp.toNat < 16 →
    ∃ t, exec (.call addr) s = .next t ∧ t.pc.toNat = addr.toNat ∧ t.sp.toNat = s.sp.toNat + 1 ∧
      (∀ k : SlotIdx, k.toNat = s.sp.toNat → t.slot k = s.pc) ∧
      (∀ k : SlotIdx, k.toNat ≠ s.sp.toNat → t.slot k = s.slot k) ∧
      SameRegs s t ∧ SameMem s t ∧ t.status = s.status

/-- CALL with a full stack takes StackOverflow and writes nothing else (R94, R111; `pc` two past the CALL is decision D4). -/
def Obligations.CallOnFullStackFaults : Prop :=
  ∀ (addr : Addr) (s : State), s.sp.toNat = 16 →
    ∃ t, exec (.call addr) s = .next t ∧ t.status = .faulted .stackOverflow ∧ t.pc = s.pc ∧
      SameRegs s t ∧ SameStack s t ∧ SameMem s t

/-- RET with 1 to 16 addresses held: `sp` counts down and all 16 bits of the slot at the new `sp` go to `pc`; no slot is
written, the popped one included (R92; the popped slot is decision D5). -/
def Obligations.RetPopsTheTop : Prop :=
  decodeWord 0x00EE#16 = .ok .ret ∧
  ∀ s : State, 0 < s.sp.toNat → s.sp.toNat ≤ 16 →
    ∃ t, exec .ret s = .next t ∧ t.sp.toNat + 1 = s.sp.toNat ∧
      (∀ k : SlotIdx, k.toNat + 1 = s.sp.toNat → t.pc = s.slot k) ∧
      SameSlots s t ∧ SameRegs s t ∧ SameMem s t ∧ t.status = s.status

/-- RET with an empty stack takes StackUnderflow and writes nothing else (R92, R112; `pc` two past the RET is decision
D4). -/
def Obligations.RetOnEmptyStackFaults : Prop :=
  ∀ s : State, s.sp.toNat = 0 →
    ∃ t, exec .ret s = .next t ∧ t.status = .faulted .stackUnderflow ∧ t.pc = s.pc ∧
      SameRegs s t ∧ SameStack s t ∧ SameMem s t

/-- A CALL and the RET that matches it: after a CALL step at depth below 16, any steps that stay at or above the new depth
and come back to it leave the return address in place, so a RET step there resumes just after the CALL at the CALL's own
depth (R95). No reset arrives in between (the model's choice, log 6). -/
def Obligations.CallRetRoundTrip : Prop :=
  ∀ (s t u : State) (w : Word) (addr : Addr),
    AtWord s w → decodeWord w = .ok (.call addr) → s.sp.toNat < 16 → step s = .next t →
    StepsAbove (s.sp.toNat + 1) t u → u.sp.toNat = s.sp.toNat + 1 → AtWord u 0x00EE#16 →
    ∃ v, step u = .next v ∧ v.pc.toNat = s.pc.toNat + 2 ∧ v.sp = s.sp ∧
      (∀ k : SlotIdx, k.toNat < s.sp.toNat → v.slot k = s.slot k) ∧ SameRegs u v

/-- No step changes a live slot: the return addresses held stay what they are (R30, R31). For the slot of index `sp - 1` at a
RET step, the one popped, this is the spec's decision D5 (R32; log 13, unverified). -/
def Obligations.LiveSlotsAreKept : Prop :=
  ∀ (s t : State) (k : SlotIdx), step s = .next t → k.toNat < s.sp.toNat → t.slot k = s.slot k

/-! ### Skips -/

/-- SE imm: another 2 to `pc` exactly when the register's value equals the immediate; nothing else is written. -/
def Obligations.SeImmSkipsOnEqual : Prop :=
  (∀ w : Word, fieldOp w = 0x3#4 → decodeWord w = .ok (.seImm (fieldX w) (fieldKk w))) ∧
  ∀ (x : RegIdx) (kk : Byte) (s : State), ∃ t, exec (.seImm x kk) s = .next t ∧
    (s.reg x = kk → t.pc = s.pc + 2#16) ∧ (s.reg x ≠ kk → t.pc = s.pc) ∧
    SameRegs s t ∧ SameStack s t ∧ SameMem s t ∧ t.status = s.status

/-- SNE imm: another 2 to `pc` exactly when the register's value differs from the immediate; nothing else is written. -/
def Obligations.SneImmSkipsOnDifferent : Prop :=
  (∀ w : Word, fieldOp w = 0x4#4 → decodeWord w = .ok (.sneImm (fieldX w) (fieldKk w))) ∧
  ∀ (x : RegIdx) (kk : Byte) (s : State), ∃ t, exec (.sneImm x kk) s = .next t ∧
    (s.reg x ≠ kk → t.pc = s.pc + 2#16) ∧ (s.reg x = kk → t.pc = s.pc) ∧
    SameRegs s t ∧ SameStack s t ∧ SameMem s t ∧ t.status = s.status

/-- SE reg: another 2 to `pc` exactly when the two values are equal; nothing else is written (R98; that only `n = 0` is
SE reg is decision D8). -/
def Obligations.SeRegSkipsOnEqual : Prop :=
  (∀ w : Word, fieldOp w = 0x5#4 → fieldN w = 0x0#4 → decodeWord w = .ok (.seReg (fieldX w) (fieldY w))) ∧
  ∀ (x y : RegIdx) (s : State), ∃ t, exec (.seReg x y) s = .next t ∧
    (s.reg x = s.reg y → t.pc = s.pc + 2#16) ∧ (s.reg x ≠ s.reg y → t.pc = s.pc) ∧
    SameRegs s t ∧ SameStack s t ∧ SameMem s t ∧ t.status = s.status

/-! ### Register instructions -/

/-- LD imm: `V[x]` takes the immediate, whatever any register holds; nothing else is written. -/
def Obligations.LdImmLoads : Prop :=
  (∀ w : Word, fieldOp w = 0x6#4 → decodeWord w = .ok (.ldImm (fieldX w) (fieldKk w))) ∧
  ∀ (x : RegIdx) (kk : Byte) (s : State), ∃ t, exec (.ldImm x kk) s = .next t ∧ t.reg x = kk ∧
    SameRegsBut x s t ∧ t.pc = s.pc ∧ SameStack s t ∧ SameMem s t ∧ t.status = s.status

/-- ADD imm: `V[x]` takes the sum modulo 256; no carry goes anywhere, overflow is no fault. -/
def Obligations.AddImmAddsModulo256 : Prop :=
  (∀ w : Word, fieldOp w = 0x7#4 → decodeWord w = .ok (.addImm (fieldX w) (fieldKk w))) ∧
  ∀ (x : RegIdx) (kk : Byte) (s : State), ∃ t, exec (.addImm x kk) s = .next t ∧
    (t.reg x).toNat = ((s.reg x).toNat + kk.toNat) % 256 ∧
    SameRegsBut x s t ∧ t.pc = s.pc ∧ SameStack s t ∧ SameMem s t ∧ t.status = s.status

/-- LD reg: `V[x]` takes the value of `V[y]`; nothing else is written. -/
def Obligations.LdRegCopies : Prop :=
  (∀ w : Word, fieldOp w = 0x8#4 → fieldN w = 0x0#4 → decodeWord w = .ok (.ldReg (fieldX w) (fieldY w))) ∧
  ∀ (x y : RegIdx) (s : State), ∃ t, exec (.ldReg x y) s = .next t ∧ t.reg x = s.reg y ∧ t.reg y = s.reg y ∧
    SameRegsBut x s t ∧ t.pc = s.pc ∧ SameStack s t ∧ SameMem s t ∧ t.status = s.status

/-- OR: bit `b` of the result is 1 when bit `b` of either operand is 1; nothing but `V[x]` is written. -/
def Obligations.OrIsBitwise : Prop :=
  (∀ w : Word, fieldOp w = 0x8#4 → fieldN w = 0x1#4 → decodeWord w = .ok (.or (fieldX w) (fieldY w))) ∧
  ∀ (x y : RegIdx) (s : State), ∃ t, exec (.or x y) s = .next t ∧
    (∀ b, (t.reg x).getLsbD b = ((s.reg x).getLsbD b || (s.reg y).getLsbD b)) ∧
    SameRegsBut x s t ∧ t.pc = s.pc ∧ SameStack s t ∧ SameMem s t ∧ t.status = s.status

/-- AND: bit `b` of the result is 1 when bit `b` of both operands is 1; nothing but `V[x]` is written. -/
def Obligations.AndIsBitwise : Prop :=
  (∀ w : Word, fieldOp w = 0x8#4 → fieldN w = 0x2#4 → decodeWord w = .ok (.and (fieldX w) (fieldY w))) ∧
  ∀ (x y : RegIdx) (s : State), ∃ t, exec (.and x y) s = .next t ∧
    (∀ b, (t.reg x).getLsbD b = ((s.reg x).getLsbD b && (s.reg y).getLsbD b)) ∧
    SameRegsBut x s t ∧ t.pc = s.pc ∧ SameStack s t ∧ SameMem s t ∧ t.status = s.status

/-- XOR: bit `b` of the result is 1 when bit `b` of exactly one operand is 1; nothing but `V[x]` is written. -/
def Obligations.XorIsBitwise : Prop :=
  (∀ w : Word, fieldOp w = 0x8#4 → fieldN w = 0x3#4 → decodeWord w = .ok (.xor (fieldX w) (fieldY w))) ∧
  ∀ (x y : RegIdx) (s : State), ∃ t, exec (.xor x y) s = .next t ∧
    (∀ b, (t.reg x).getLsbD b = ((s.reg x).getLsbD b != (s.reg y).getLsbD b)) ∧
    SameRegsBut x s t ∧ t.pc = s.pc ∧ SameStack s t ∧ SameMem s t ∧ t.status = s.status

/-- ADD reg: `V[x]` takes the sum of the two values modulo 256; register 15 is written only as `x`; overflow is no fault. -/
def Obligations.AddRegAddsModulo256 : Prop :=
  (∀ w : Word, fieldOp w = 0x8#4 → fieldN w = 0x4#4 → decodeWord w = .ok (.addReg (fieldX w) (fieldY w))) ∧
  ∀ (x y : RegIdx) (s : State), ∃ t, exec (.addReg x y) s = .next t ∧
    (t.reg x).toNat = ((s.reg x).toNat + (s.reg y).toNat) % 256 ∧
    SameRegsBut x s t ∧ t.pc = s.pc ∧ SameStack s t ∧ SameMem s t ∧ t.status = s.status

/-- Operands are read before the destination is written: with `x = y` the operands are the register's old value, so LD, OR
and AND leave it, XOR clears it and ADD doubles it; and in general both operands of a result are values from before. -/
def Obligations.OperandsAreReadBeforeTheWrite : Prop :=
  ∀ (x y : RegIdx) (s : State),
    (∃ t, exec (.ldReg x y) s = .next t ∧ t.reg x = s.reg y ∧ (x = y → t.reg x = s.reg x)) ∧
    (∃ t, exec (.or x y) s = .next t ∧ t.reg x = s.reg x ||| s.reg y ∧ (x = y → t.reg x = s.reg x)) ∧
    (∃ t, exec (.and x y) s = .next t ∧ t.reg x = s.reg x &&& s.reg y ∧ (x = y → t.reg x = s.reg x)) ∧
    (∃ t, exec (.xor x y) s = .next t ∧ t.reg x = s.reg x ^^^ s.reg y ∧ (x = y → t.reg x = 0x00#8)) ∧
    (∃ t, exec (.addReg x y) s = .next t ∧ t.reg x = s.reg x + s.reg y ∧
      (x = y → (t.reg x).toNat = (2 * (s.reg x).toNat) % 256))

/-! ### The whole machine -/

/-- Over all instructions, of the registers, memory and the call stack: a register changes only as the instruction's own
destination, so register 15 is never written as a side effect, no instruction writes memory, and only CALL and RET touch the
call stack (R22, R23, R41). That RET leaves every slot, the popped one included, is the spec's decision D5 (R32; log 13,
unverified). `pc` and `status` are left to `PcAfterStep` and `StatusAfterStep`. -/
def Obligations.OnlyTheDestinationChanges : Prop :=
  ∀ (i : Instr) (s t : State), exec i s = .next t →
    (∀ j : RegIdx, destReg i ≠ some j → t.reg j = s.reg j) ∧ SameMem s t ∧
    ((∀ addr, i ≠ .call addr) → SameSlots s t) ∧ (i ≠ .ret → (∀ addr, i ≠ .call addr) → t.sp = s.sp)

/-- Over all instructions: what a handler does depends on no general register but those R23 says it reads. -/
def Obligations.OnlyTheOperandsMatter : Prop :=
  ∀ (i : Instr) (s s' t : State),
    s'.pc = s.pc → s'.sp = s.sp → s'.stack = s.stack → s'.status = s.status → s'.mem = s.mem →
    (∀ j ∈ readRegs i, s'.reg j = s.reg j) → exec i s = .next t →
    ∃ t', exec i s' = .next t' ∧ t'.pc = t.pc ∧ t'.sp = t.sp ∧ t'.stack = t.stack ∧ t'.status = t.status ∧
      t'.mem = t.mem ∧ (∀ x, destReg i = some x → t'.reg x = t.reg x) ∧
      (∀ j, destReg i ≠ some j → t'.reg j = s'.reg j)

/-- No step writes memory (R41, R48). -/
def Obligations.StepNeverWritesMemory : Prop :=
  ∀ s t : State, step s = .next t → t.mem = s.mem

/-- A step depends on memory through the one word it fetches: in two memories that give the same word it does the same, so
the skipped bytes of a taken skip and illegal words elsewhere have no effect (R41, R88). -/
def Obligations.StepReadsOnlyTheFetchedWord : Prop :=
  ∀ (s t : State) (m : Memory), ({ s with mem := m } : State).fetch = s.fetch → step s = .next t →
    step { s with mem := m } = .next { t with mem := m }

/-- The invariant of the machine's states is kept by every step: memory stays in its canonical form and `0 ≤ sp ≤ 16`
(R31; the 5 bits of `sp` are decision D2; the canonical form is the model's choice, log 8). -/
def Obligations.StepKeepsInv : Prop :=
  ∀ s t : State, s.Inv → step s = .next t → t.Inv

/-- What a program alone can do to `pc` is bounded: with slots at most 4096 and `pc` at most 4098, every step keeps both
bounds (R28, decision D1). -/
def Obligations.StepKeepsPcBounded : Prop :=
  ∀ s t : State, s.PcBounded → step s = .next t → t.PcBounded

/-- Both invariants hold right after reset. The reset values are the spec's decision D12 (log 16); that memory has a canonical
form at all is the model's choice (log 8). -/
def Obligations.InvariantsHoldAtReset : Prop :=
  State.reset.Inv ∧ State.reset.PcBounded

/-- Every state that reset, steps and host moves lead to meets the invariant; a host write of `sp` that would break it is
refused (R143, decision D2; the refusal is the model's, log 2). The canonical form of memory in the invariant is the model's
choice (log 8). -/
def Obligations.ReachableStatesMeetInv : Prop :=
  ∀ s : State, Reachable s → s.Inv

/-- A run of a launched engine that no reset interrupts ends in exactly two ways or not at all: halted, faulted with one fault,
or running for ever, and no two of them (R85, R147). `EndsHalted`, `EndsFaulted` and `NeverEnds` speak of steps alone: a reset
may arrive at any time (R86, R140), and that none does is the model's choice (log 6), as are the steps after the end (log
1). -/
def Obligations.RunEndsInTwoWaysOrNever : Prop :=
  ∀ s : State, s.Inv → s.status = .running →
    (EndsHalted s ∨ (∃ f, EndsFaulted s f) ∨ NeverEnds s) ∧
    (∀ f, ¬(EndsHalted s ∧ EndsFaulted s f)) ∧ ¬(EndsHalted s ∧ NeverEnds s) ∧
    (∀ f, ¬(EndsFaulted s f ∧ NeverEnds s)) ∧ (∀ f g, EndsFaulted s f → EndsFaulted s g → f = g)

/-! ### Reset and the host -/

/-- Reset, allowed in any state, leaves every piece of state at its value: 4096 zero bytes and no byte beyond, all else zero,
status halted (R36, R140; decisions D6 and D12). -/
def Obligations.ResetValues : Prop :=
  ∀ s : State, ∃ t, hostStep .reset s = .next t ∧ t = State.reset ∧
    (∀ a, a < 4096 → t.mem.read a = some 0x00#8) ∧ (∀ a, 4096 ≤ a → t.mem.read a = none) ∧ t.pc = 0x0000#16 ∧
    (∀ i, t.reg i = 0x00#8) ∧ (∀ k, t.slot k = 0x0000#16) ∧ t.sp = 0#5 ∧ t.status = .halted

/-- The run command takes a halted engine with a legal `sp` to running and changes nothing else; in running and faulted it
has no effect (R144, decision D6). -/
def Obligations.RunCommand : Prop :=
  (∀ s : State, s.status = .halted → s.sp.toNat ≤ 16 →
    ∃ t, hostStep .run s = .next t ∧ t.status = .running ∧ t.pc = s.pc ∧ SameRegs s t ∧ SameStack s t ∧ SameMem s t) ∧
  (∀ s : State, s.status ≠ .halted → hostStep .run s = .next s)

/-- A host write made while the engine is not running puts the value where it says and leaves everything else, each item at
any value of its width, `sp` at 0 to 16 (R141 to R143; widths: decisions D1, D2, D18). That a write of memory keeps its canonical
form is the model's own clause (log 8). -/
def Obligations.HostWritesTakeEffect : Prop :=
  ∀ s : State, s.Inv → s.status ≠ .running →
    (∀ a v, ∃ t, hostStep (.writeMem a v) s = .next t ∧ t.mem.read a.toNat = some v ∧
      (∀ b, b ≠ a.toNat → t.mem.read b = s.mem.read b) ∧ Memory.wf t.mem = true ∧ t = { s with mem := t.mem }) ∧
    (∀ v, ∃ t, hostStep (.writePc v) s = .next t ∧ t = { s with pc := v }) ∧
    (∀ i v, ∃ t, hostStep (.writeReg i v) s = .next t ∧ t.reg i = v ∧ SameRegsBut i s t ∧ t = { s with V := t.V }) ∧
    (∀ k v, ∃ t, hostStep (.writeSlot k v) s = .next t ∧ t.slot k = v ∧ (∀ j, j ≠ k → t.slot j = s.slot j) ∧
      t = { s with stack := t.stack }) ∧
    (∀ v, v.toNat ≤ 16 → ∃ t, hostStep (.writeSp v) s = .next t ∧ t = { s with sp := v }) ∧
    hostInspect s = some s

/-- While the engine runs the host has no move but reset: writes are refused by name, nothing is read, the run command has no
effect (R146, decision D10; the refusal is the model's, log 7). -/
def Obligations.HostHasNoMoveDuringARun : Prop :=
  ∀ (s t : State) (op : HostOp), s.status = .running → hostStep op s = .next t →
    (op = .reset ∧ t = State.reset ∨ op = .run ∧ t = s) ∧ hostInspect s = none

/-- `sp` above 16 is no state of the machine: the host's write of such a value, the launch of such a state and a step of it
are all refused by name (R143, decision D2; the refusal is the model's, log 2). -/
def Obligations.SpAbove16IsRefused : Prop :=
  (∀ (s : State) (v : StackPtr), 16 < v.toNat → hostStep (.writeSp v) s = .refused .spOutOfRange) ∧
  (∀ s : State, 16 < s.sp.toNat → s.status = .halted → hostStep .run s = .refused .spOutOfRange) ∧
  (∀ s : State, 16 < s.sp.toNat → s.status = .running → step s = .refused .spOutOfRange)

/-- The model's own: a state with an instruction placed by `withFetchWord` runs exactly that instruction next, from any state
with canonical memory (log 4 and log 5). -/
def Obligations.PlacedInstructionRunsNext : Prop :=
  ∀ (s : State) (nbits w : Nat) (i : Instr), Memory.wf s.mem = true → decodeTableWord nbits w = some i →
    step (s.withFetchWord nbits w) = exec i (s.withFetchWord nbits w).advancePc
end

