-- ==== Sys2Proof/Laws/Decode.lean ====
section
/-! SUPPORT. The fields of a word put together by a format, and a word put together from its fields (spec/30_encoding.md
R62, R63). -/

namespace Sys2Proof

/-- The high part of a concatenation. -/
theorem extract_append_high {n m : Nat} (a : BitVec n) (b : BitVec m) : (a ++ b).extractLsb' m n = a := by
  apply BitVec.eq_of_getLsbD_eq
  intro i hi
  simp [BitVec.getLsbD_append, hi]

/-- The low part of a concatenation. -/
theorem extract_append_low {n m : Nat} (a : BitVec n) (b : BitVec m) : (a ++ b).extractLsb' 0 m = b := by
  apply BitVec.eq_of_getLsbD_eq
  intro i hi
  simp [BitVec.getLsbD_append, hi]

/-- A slice of a concatenation that lies in its high part. -/
theorem extract_append_above {n m : Nat} (a : BitVec n) (b : BitVec m) (k len : Nat) :
    (a ++ b).extractLsb' (m + k) len = a.extractLsb' k len := by
  apply BitVec.eq_of_getLsbD_eq
  intro i hi
  simp only [BitVec.getLsbD_append, BitVec.getLsbD_extractLsb', hi, decide_true, Bool.true_and]
  rw [if_neg (by omega), show m + k + i - m = k + i by omega]

/-- Two neighbouring slices make the longer one. -/
theorem extract_append_extract {w : Nat} (v : BitVec w) (lo n m : Nat) :
    v.extractLsb' (lo + m) n ++ v.extractLsb' lo m = v.extractLsb' lo (n + m) := by
  apply BitVec.eq_of_getLsbD_eq
  intro i hi
  simp only [BitVec.getLsbD_append, BitVec.getLsbD_extractLsb', hi, decide_true, Bool.true_and]
  split
  · simp [*]
  · rw [show lo + m + (i - m) = lo + i by omega]
    simp [show i - m < n by omega]

/-- The fields of a word of format NNN (R63). -/
theorem fields_nnn (o : Nibble) (a : Addr) :
    fieldOp (o ++ a : BitVec (4 + 12)) = o ∧ fieldAddr (o ++ a : BitVec (4 + 12)) = a :=
  ⟨extract_append_high o a, extract_append_low o a⟩

/-- The fields of a word of format XKK (R63). -/
theorem fields_xkk (o : Nibble) (x : RegIdx) (kk : Byte) :
    fieldOp (o ++ x ++ kk : BitVec (4 + 4 + 8)) = o ∧ fieldX (o ++ x ++ kk : BitVec (4 + 4 + 8)) = x ∧
      fieldKk (o ++ x ++ kk : BitVec (4 + 4 + 8)) = kk := by
  refine ⟨?_, ?_, extract_append_low _ kk⟩
  · exact (extract_append_above (o ++ x) kk 4 4).trans (extract_append_high o x)
  · exact (extract_append_above (o ++ x) kk 0 4).trans (extract_append_low o x)

/-- The fields of a word of format XYN (R63). -/
theorem fields_xyn (o : Nibble) (x y : RegIdx) (n : Nibble) :
    fieldOp (o ++ x ++ y ++ n : BitVec (4 + 4 + 4 + 4)) = o ∧ fieldX (o ++ x ++ y ++ n : BitVec (4 + 4 + 4 + 4)) = x ∧
      fieldY (o ++ x ++ y ++ n : BitVec (4 + 4 + 4 + 4)) = y ∧ fieldN (o ++ x ++ y ++ n : BitVec (4 + 4 + 4 + 4)) = n := by
  refine ⟨?_, ?_, ?_, extract_append_low _ n⟩
  · exact (extract_append_above (o ++ x ++ y) n 8 4).trans
      ((extract_append_above (o ++ x) y 4 4).trans (extract_append_high o x))
  · exact (extract_append_above (o ++ x ++ y) n 4 4).trans
      ((extract_append_above (o ++ x) y 0 4).trans (extract_append_low o x))
  · exact (extract_append_above (o ++ x ++ y) n 0 4).trans (extract_append_low (o ++ x) y)

/-- A word is its top nibble and its address field. -/
theorem word_eq_nnn (w : Word) : (fieldOp w ++ fieldAddr w : BitVec (4 + 12)) = w :=
  (extract_append_extract w 0 4 12).trans (BitVec.extractLsb'_eq_self)

/-- A word is its top nibble, its `x` and its immediate. -/
theorem word_eq_xkk (w : Word) : (fieldOp w ++ fieldX w ++ fieldKk w : BitVec (4 + 4 + 8)) = w := by
  have h : fieldOp w ++ fieldX w = w.extractLsb' 8 (4 + 4) := extract_append_extract w 8 4 4
  rw [h]
  exact (extract_append_extract w 0 (4 + 4) 8).trans (BitVec.extractLsb'_eq_self)

/-- A word is its four nibbles. -/
theorem word_eq_xyn (w : Word) : (fieldOp w ++ fieldX w ++ fieldY w ++ fieldN w : BitVec (4 + 4 + 4 + 4)) = w := by
  have h : fieldOp w ++ fieldX w = w.extractLsb' 8 (4 + 4) := extract_append_extract w 8 4 4
  have h' : fieldOp w ++ fieldX w ++ fieldY w = w.extractLsb' 4 (4 + 4 + 4) := by
    rw [h]
    exact extract_append_extract w 4 (4 + 4) 4
  rw [h']
  exact (extract_append_extract w 0 (4 + 4 + 4) 4).trans (BitVec.extractLsb'_eq_self)

/-- The mask of formats NNN and XKK keeps the top nibble (R66). -/
theorem mask_op (o : Nibble) (a : Addr) : (o ++ a : BitVec (4 + 12)) &&& 0xF000#16 = o ++ 0x000#12 := by
  rw [show 0xF000#16 = (0xF#4 ++ 0x000#12 : BitVec (4 + 12)) by decide, BitVec.and_append, BitVec.and_zero,
    show 0xF#4 = BitVec.allOnes 4 by decide, BitVec.and_allOnes]

/-- The mask of format XYN keeps the top nibble and `n` (R66). -/
theorem mask_op_n (o : Nibble) (x y : RegIdx) (n : Nibble) :
    (o ++ x ++ y ++ n : BitVec (4 + 4 + 4 + 4)) &&& 0xF00F#16 = o ++ 0x0#4 ++ 0x0#4 ++ n := by
  rw [show 0xF00F#16 = (0xF#4 ++ 0x0#4 ++ 0x0#4 ++ 0xF#4 : BitVec (4 + 4 + 4 + 4)) by decide, BitVec.and_append,
    BitVec.and_append, BitVec.and_append, BitVec.and_zero, BitVec.and_zero, show 0xF#4 = BitVec.allOnes 4 by decide,
    BitVec.and_allOnes, BitVec.and_allOnes]

/-- A word of format XKK, its `x` and `kk` taken as one 12-bit field. -/
theorem xkk_eq_nnn (o : Nibble) (x : RegIdx) (kk : Byte) :
    (o ++ x ++ kk : BitVec (4 + 4 + 8)) = (o ++ (x ++ kk : BitVec (4 + 8)) : BitVec (4 + 12)) :=
  BitVec.append_assoc

/-- One test of the dispatcher, when the word is rejected: the test failed and the rest rejects it. -/
theorem test_eq_error {c : Prop} [Decidable c] {i : Instr} {r : Except Reject Instr} {e : Reject} :
    (if c then .ok i else r) = .error e ↔ ¬c ∧ r = .error e := by
  by_cases h : c <;> simp [h]

/-- One test of the dispatcher, when the word is an instruction: this test picked it, or it failed and the rest did. -/
theorem test_eq_ok {c : Prop} [Decidable c] {i j : Instr} {r : Except Reject Instr} :
    (if c then .ok i else r) = .ok j ↔ (c ∧ i = j) ∨ (¬c ∧ r = .ok j) := by
  by_cases h : c <;> simp [h]

/-- Words with different top nibbles are different; so a word outside group 0 is none of the three exact words (R65). -/
theorem ne_of_fieldOp {w c : Word} (hc : fieldOp c = 0x0#4) (h : fieldOp w ≠ 0x0#4) : w ≠ c :=
  fun e => h (e ▸ hc)

/-- The dispatcher outside group 0: the tests on the top nibble and on `n` alone (R65). -/
theorem decodeWord_of_op {w : Word} (h : fieldOp w ≠ 0x0#4) :
    decodeWord w =
      if fieldOp w = 0x1#4 then .ok (.jmp (fieldAddr w))
      else if fieldOp w = 0x2#4 then .ok (.call (fieldAddr w))
      else if fieldOp w = 0x3#4 then .ok (.seImm (fieldX w) (fieldKk w))
      else if fieldOp w = 0x4#4 then .ok (.sneImm (fieldX w) (fieldKk w))
      else if fieldOp w = 0x5#4 ∧ fieldN w = 0x0#4 then .ok (.seReg (fieldX w) (fieldY w))
      else if fieldOp w = 0x6#4 then .ok (.ldImm (fieldX w) (fieldKk w))
      else if fieldOp w = 0x7#4 then .ok (.addImm (fieldX w) (fieldKk w))
      else if fieldOp w = 0x8#4 ∧ fieldN w = 0x0#4 then .ok (.ldReg (fieldX w) (fieldY w))
      else if fieldOp w = 0x8#4 ∧ fieldN w = 0x1#4 then .ok (.or (fieldX w) (fieldY w))
      else if fieldOp w = 0x8#4 ∧ fieldN w = 0x2#4 then .ok (.and (fieldX w) (fieldY w))
      else if fieldOp w = 0x8#4 ∧ fieldN w = 0x3#4 then .ok (.xor (fieldX w) (fieldY w))
      else if fieldOp w = 0x8#4 ∧ fieldN w = 0x4#4 then .ok (.addReg (fieldX w) (fieldY w))
      else .error (.unimplementedOpcode w) := by
  rw [decodeWord, if_neg (ne_of_fieldOp (by decide) h), if_neg (ne_of_fieldOp (by decide) h),
    if_neg (ne_of_fieldOp (by decide) h)]

/-- The one name a word is rejected by, with the word itself (R67). -/
theorem decodeWord_error {w : Word} {e : Reject} (h : decodeWord w = .error e) : e = .unimplementedOpcode w := by
  simp only [decodeWord, test_eq_error, Except.error.injEq] at h
  obtain ⟨-, -, -, -, -, -, -, -, -, -, -, -, -, -, -, h⟩ := h
  exact h.symm

/-- Decoding the bytes of a word is decoding the word (R61). -/
theorem decode_two (hi lo : Byte) (rest : List Byte) :
    decode (hi :: lo :: rest) = (decodeWord (wordOfBytes hi lo)).map (fun i => (i, rest)) := by
  cases h : decodeWord (wordOfBytes hi lo) <;> simp [decode, h, Except.map]

end Sys2Proof
end

