-- ==== Sys2Proof/Laws/Memory.lean ====
section
/-! SUPPORT. The laws of memory: read after write, the canonical form is kept, equal reads are equal memories. -/

namespace Sys2Proof.Machine

/-- The canonical form from a cell on, taken apart. -/
theorem Memory.wfFrom_cons (lo a : Nat) (v : Byte) (m : Memory) :
    Memory.wfFrom lo ((a, v) :: m) = true ↔
      lo ≤ a ∧ a < Config.memSize ∧ v ≠ Config.resetByte ∧ Memory.wfFrom (a + 1) m = true := by
  simp [Memory.wfFrom, and_assoc]

/-- Memory that starts later also starts earlier. -/
theorem Memory.wfFrom_mono {lo lo' : Nat} (h : lo' ≤ lo) {m : Memory} (hm : Memory.wfFrom lo m = true) :
    Memory.wfFrom lo' m = true := by
  cases m with
  | nil => rfl
  | cons c m =>
    obtain ⟨a, v⟩ := c
    rw [Memory.wfFrom_cons] at hm ⊢
    exact ⟨by omega, hm.2⟩

/-- Below its first address a canonical memory lists nothing. -/
theorem Memory.lookup_below {lo : Nat} {m : Memory} (hm : Memory.wfFrom lo m = true) {a : Nat} (ha : a < lo) :
    Memory.lookup m a = Config.resetByte := by
  induction m generalizing lo with
  | nil => rfl
  | cons c m ih =>
    obtain ⟨b, u⟩ := c
    obtain ⟨h1, -, -, h4⟩ := (Memory.wfFrom_cons ..).1 hm
    rw [Memory.lookup, if_neg (by omega)]
    exact ih h4 (by omega)

/-- Inserting a byte keeps the canonical form. -/
theorem Memory.wfFrom_insert {lo a : Nat} {v : Byte} {m : Memory} (hm : Memory.wfFrom lo m = true) (h : lo ≤ a)
    (ha : a < Config.memSize) : Memory.wfFrom lo (Memory.insert m a v) = true := by
  induction m generalizing lo with
  | nil =>
    rw [Memory.insert]
    split
    · rfl
    · exact (Memory.wfFrom_cons ..).2 ⟨h, ha, ‹_›, rfl⟩
  | cons c m ih =>
    obtain ⟨b, u⟩ := c
    obtain ⟨h1, h2, h3, h4⟩ := (Memory.wfFrom_cons ..).1 hm
    rw [Memory.insert]
    split
    · split
      · exact hm
      · exact (Memory.wfFrom_cons ..).2 ⟨h, ha, ‹_›, (Memory.wfFrom_cons ..).2 ⟨by omega, h2, h3, h4⟩⟩
    · split
      · subst a
        split
        · exact Memory.wfFrom_mono (by omega) h4
        · exact (Memory.wfFrom_cons ..).2 ⟨h, ha, ‹_›, h4⟩
      · exact (Memory.wfFrom_cons ..).2 ⟨h1, h2, h3, ih h4 (by omega)⟩

/-- Reading an address of the list after inserting a byte. -/
theorem Memory.lookup_insert {lo : Nat} {m : Memory} (hm : Memory.wfFrom lo m = true) (a a' : Nat) (v : Byte) :
    Memory.lookup (Memory.insert m a v) a' = if a' = a then v else Memory.lookup m a' := by
  induction m generalizing lo with
  | nil =>
    by_cases e : a' = a
    · subst e
      by_cases hv : v = Config.resetByte <;> simp [Memory.insert, Memory.lookup, hv]
    · by_cases hv : v = Config.resetByte <;> simp [Memory.insert, Memory.lookup, hv, e, Ne.symm e]
  | cons c m ih =>
    obtain ⟨b, u⟩ := c
    obtain ⟨-, -, -, h4⟩ := (Memory.wfFrom_cons ..).1 hm
    have hb := fun h => Memory.lookup_below h4 (a := a) h
    rw [Memory.insert]
    split
    · split
      · by_cases e : a' = a
        · subst e
          rw [if_pos rfl, Memory.lookup, if_neg (by omega), hb (by omega)]
          exact (‹v = _›).symm
        · rw [if_neg e]
      · by_cases e : a' = a
        · subst e
          simp [Memory.lookup]
        · simp [Memory.lookup, e, Ne.symm e]
    · split
      · subst a
        have hb' := hb (by omega)
        by_cases e : a' = b
        · subst e
          split <;> simp_all [Memory.lookup]
        · split <;> simp_all [Memory.lookup, Ne.symm e]
      · by_cases e : a' = b
        · subst e
          simp [Memory.lookup, show a' ≠ a by omega]
        · simp only [Memory.lookup, if_neg (Ne.symm e)]
          exact ih h4

/-- A write keeps the canonical form. -/
theorem Memory.wf_write {m : Memory} (hm : Memory.wf m = true) (a : Addr) (v : Byte) :
    Memory.wf (Memory.write m a v) = true :=
  Memory.wfFrom_insert hm (Nat.zero_le _) a.isLt

/-- Reading after a write: the written byte at its address, what was there before elsewhere. -/
theorem Memory.read_write {m : Memory} (hm : Memory.wf m = true) (a : Addr) (v : Byte) (a' : Nat) :
    Memory.read (Memory.write m a v) a' = if a' = a.toNat then some v else Memory.read m a' := by
  have := a.isLt
  simp only [Memory.read, Memory.write, Memory.lookup_insert (lo := 0) hm]
  split <;> split <;> simp_all

/-- Canonical memories that read alike are the same list: the form has one list per contents. -/
theorem Memory.wfFrom_ext {lo : Nat} {m m' : Memory} (h : Memory.wfFrom lo m = true) (h' : Memory.wfFrom lo m' = true)
    (heq : ∀ a, Memory.lookup m a = Memory.lookup m' a) : m = m' := by
  induction m generalizing lo m' with
  | nil =>
    cases m' with
    | nil => rfl
    | cons c m' =>
      obtain ⟨b, u⟩ := c
      have := heq b
      obtain ⟨-, -, h3, -⟩ := (Memory.wfFrom_cons ..).1 h'
      simp_all [Memory.lookup]
  | cons c m ih =>
    obtain ⟨a, v⟩ := c
    obtain ⟨-, -, h3, h4⟩ := (Memory.wfFrom_cons ..).1 h
    cases m' with
    | nil =>
      have := heq a
      simp_all [Memory.lookup]
    | cons c' m' =>
      obtain ⟨b, u⟩ := c'
      obtain ⟨-, -, k3, k4⟩ := (Memory.wfFrom_cons ..).1 h'
      have e : a = b := by
        rcases Nat.lt_trichotomy a b with hlt | e | hlt
        · have := heq a
          rw [Memory.lookup, if_pos rfl, Memory.lookup, if_neg (by omega), Memory.lookup_below k4 (by omega)] at this
          exact absurd this h3
        · exact e
        · have := heq b
          rw [Memory.lookup, if_neg (by omega), Memory.lookup_below h4 (by omega), Memory.lookup, if_pos rfl] at this
          exact absurd this.symm k3
      subst e
      have hv : v = u := by simpa [Memory.lookup] using heq a
      subst hv
      refine congrArg _ (ih h4 k4 fun x => ?_)
      by_cases hx : x = a
      · subst hx
        rw [Memory.lookup_below h4 (by omega), Memory.lookup_below k4 (by omega)]
      · simpa [Memory.lookup, Ne.symm hx] using heq x

/-- Canonical memories that read alike at every address are equal. -/
theorem Memory.wf_ext {m m' : Memory} (h : Memory.wf m = true) (h' : Memory.wf m' = true)
    (heq : ∀ a, Memory.read m a = Memory.read m' a) : m = m' := by
  have out : ∀ {n : Memory} {lo a : Nat}, Memory.wfFrom lo n = true → Config.memSize ≤ a →
      Memory.lookup n a = Config.resetByte := by
    intro n
    induction n with
    | nil => intros; rfl
    | cons c n ih =>
      obtain ⟨b, u⟩ := c
      intro lo a hn ha
      obtain ⟨-, h2, -, h4⟩ := (Memory.wfFrom_cons ..).1 hn
      rw [Memory.lookup, if_neg (by omega)]
      exact ih h4 ha
  refine Memory.wfFrom_ext h h' fun a => ?_
  by_cases ha : a < Config.memSize
  · simpa [Memory.read, ha] using heq a
  · rw [out h (by omega), out h' (by omega)]

/-- When a 16-bit read answers: both bytes exist, and the word is made of them high byte first (20_memory.md R42). -/
theorem Memory.read16_eq_some {m : Memory} {a : Nat} {w : Word} :
    Memory.read16 m a = some w ↔
      ∃ hi lo, Memory.read m a = some hi ∧ Memory.read m (a + 1) = some lo ∧ w = wordOfBytes hi lo := by
  cases h : Memory.read m a <;> cases h' : Memory.read m (a + 1) <;> simp [Memory.read16, h, h', eq_comm]

/-- When a 16-bit read answers nothing: one of the two addresses does not exist (20_memory.md R44). -/
theorem Memory.read16_eq_none {m : Memory} {a : Nat} : Memory.read16 m a = none ↔ Config.lastFetch < a := by
  by_cases h : a + 1 < 4096
  · simp [Memory.read16, Memory.read, show a < 4096 by omega, h]
    omega
  · by_cases h' : a < 4096 <;> simp [Memory.read16, Memory.read, h, h'] <;> omega

/-- The word read back is the two bytes written. -/
theorem wordOfBytes_high_low (w : Word) : wordOfBytes (highByte w) (lowByte w) = w := by
  apply BitVec.eq_of_getLsbD_eq
  intro i hi
  simp only [wordOfBytes, highByte, lowByte, BitVec.getLsbD_append, BitVec.getLsbD_extractLsb']
  split
  · simp [*]
  · rw [show 8 + (i - 8) = i by omega]
    simp [show i - 8 < 8 by omega]

end Sys2Proof.Machine
end

