-- ==== Sys2Proof/Laws/State.lean ====
section
/-! SUPPORT. What each update of the state leaves and changes, one lemma per field and update. -/

namespace Sys2Proof.Machine

variable (s : State)

@[simp] theorem setReg_V (i : RegIdx) (v : Byte) : (s.setReg i v).V = s.V.set i.toNat v i.isLt := rfl
@[simp] theorem setReg_pc (i : RegIdx) (v : Byte) : (s.setReg i v).pc = s.pc := rfl
@[simp] theorem setReg_sp (i : RegIdx) (v : Byte) : (s.setReg i v).sp = s.sp := rfl
@[simp] theorem setReg_stack (i : RegIdx) (v : Byte) : (s.setReg i v).stack = s.stack := rfl
@[simp] theorem setReg_status (i : RegIdx) (v : Byte) : (s.setReg i v).status = s.status := rfl
@[simp] theorem setReg_mem (i : RegIdx) (v : Byte) : (s.setReg i v).mem = s.mem := rfl
@[simp] theorem setReg_slot (i : RegIdx) (v : Byte) (k : SlotIdx) : (s.setReg i v).slot k = s.slot k := rfl

@[simp] theorem setSlot_V (k : SlotIdx) (v : Word) : (s.setSlot k v).V = s.V := rfl
@[simp] theorem setSlot_pc (k : SlotIdx) (v : Word) : (s.setSlot k v).pc = s.pc := rfl
@[simp] theorem setSlot_sp (k : SlotIdx) (v : Word) : (s.setSlot k v).sp = s.sp := rfl
@[simp] theorem setSlot_stack (k : SlotIdx) (v : Word) : (s.setSlot k v).stack = s.stack.set k.toNat v k.isLt := rfl
@[simp] theorem setSlot_status (k : SlotIdx) (v : Word) : (s.setSlot k v).status = s.status := rfl
@[simp] theorem setSlot_mem (k : SlotIdx) (v : Word) : (s.setSlot k v).mem = s.mem := rfl
@[simp] theorem setSlot_reg (k : SlotIdx) (v : Word) (i : RegIdx) : (s.setSlot k v).reg i = s.reg i := rfl

@[simp] theorem setPc_V (t : Word) : (s.setPc t).V = s.V := rfl
@[simp] theorem setPc_pc (t : Word) : (s.setPc t).pc = t := rfl
@[simp] theorem setPc_sp (t : Word) : (s.setPc t).sp = s.sp := rfl
@[simp] theorem setPc_stack (t : Word) : (s.setPc t).stack = s.stack := rfl
@[simp] theorem setPc_status (t : Word) : (s.setPc t).status = s.status := rfl
@[simp] theorem setPc_mem (t : Word) : (s.setPc t).mem = s.mem := rfl
@[simp] theorem setPc_reg (t : Word) (i : RegIdx) : (s.setPc t).reg i = s.reg i := rfl
@[simp] theorem setPc_slot (t : Word) (k : SlotIdx) : (s.setPc t).slot k = s.slot k := rfl

@[simp] theorem setSp_V (v : StackPtr) : (s.setSp v).V = s.V := rfl
@[simp] theorem setSp_pc (v : StackPtr) : (s.setSp v).pc = s.pc := rfl
@[simp] theorem setSp_sp (v : StackPtr) : (s.setSp v).sp = v := rfl
@[simp] theorem setSp_stack (v : StackPtr) : (s.setSp v).stack = s.stack := rfl
@[simp] theorem setSp_status (v : StackPtr) : (s.setSp v).status = s.status := rfl
@[simp] theorem setSp_mem (v : StackPtr) : (s.setSp v).mem = s.mem := rfl
@[simp] theorem setSp_reg (v : StackPtr) (i : RegIdx) : (s.setSp v).reg i = s.reg i := rfl
@[simp] theorem setSp_slot (v : StackPtr) (k : SlotIdx) : (s.setSp v).slot k = s.slot k := rfl

@[simp] theorem setStatus_V (st : Status) : (s.setStatus st).V = s.V := rfl
@[simp] theorem setStatus_pc (st : Status) : (s.setStatus st).pc = s.pc := rfl
@[simp] theorem setStatus_sp (st : Status) : (s.setStatus st).sp = s.sp := rfl
@[simp] theorem setStatus_stack (st : Status) : (s.setStatus st).stack = s.stack := rfl
@[simp] theorem setStatus_status (st : Status) : (s.setStatus st).status = st := rfl
@[simp] theorem setStatus_mem (st : Status) : (s.setStatus st).mem = s.mem := rfl
@[simp] theorem setStatus_reg (st : Status) (i : RegIdx) : (s.setStatus st).reg i = s.reg i := rfl
@[simp] theorem setStatus_slot (st : Status) (k : SlotIdx) : (s.setStatus st).slot k = s.slot k := rfl

@[simp] theorem setMem_V (m : Memory) : (s.setMem m).V = s.V := rfl
@[simp] theorem setMem_pc (m : Memory) : (s.setMem m).pc = s.pc := rfl
@[simp] theorem setMem_sp (m : Memory) : (s.setMem m).sp = s.sp := rfl
@[simp] theorem setMem_stack (m : Memory) : (s.setMem m).stack = s.stack := rfl
@[simp] theorem setMem_status (m : Memory) : (s.setMem m).status = s.status := rfl
@[simp] theorem setMem_mem (m : Memory) : (s.setMem m).mem = m := rfl
@[simp] theorem setMem_reg (m : Memory) (i : RegIdx) : (s.setMem m).reg i = s.reg i := rfl
@[simp] theorem setMem_slot (m : Memory) (k : SlotIdx) : (s.setMem m).slot k = s.slot k := rfl

/-- A register reads back what was written to it, and no other register changes (10_state.md R21). -/
theorem reg_setReg (i j : RegIdx) (v : Byte) : (s.setReg i v).reg j = if j = i then v else s.reg j := by
  simp only [State.reg, setReg_V, Vector.getElem_set, BitVec.toNat_inj, eq_comm]

@[simp] theorem reg_setReg_self (i : RegIdx) (v : Byte) : (s.setReg i v).reg i = v := by simp [reg_setReg]

@[simp] theorem reg_setReg_ne {i j : RegIdx} (h : j ≠ i) (v : Byte) : (s.setReg i v).reg j = s.reg j := by
  simp [reg_setReg, h]

/-- A slot reads back what was written to it, and no other slot changes (10_state.md R30). -/
theorem slot_setSlot (k j : SlotIdx) (v : Word) : (s.setSlot k v).slot j = if j = k then v else s.slot j := by
  simp only [State.slot, setSlot_stack, Vector.getElem_set, BitVec.toNat_inj, eq_comm]

@[simp] theorem slot_setSlot_self (k : SlotIdx) (v : Word) : (s.setSlot k v).slot k = v := by simp [slot_setSlot]

@[simp] theorem slot_setSlot_ne {k j : SlotIdx} (h : j ≠ k) (v : Word) : (s.setSlot k v).slot j = s.slot j := by
  simp [slot_setSlot, h]

end Sys2Proof.Machine
end

