-- ==== Sys2Proof/Laws/Ops.lean ====
section
/-! SUPPORT. One lemma per shared operation: what it can answer. -/

namespace Sys2Proof.Machine

/-- A stack pointer below 16 names the slot of its own number. -/
theorem slotIdx_toNat {p : StackPtr} (h : p.toNat < 16) : (slotIdx p).toNat = p.toNat := by
  simp only [slotIdx, BitVec.toNat_setWidth]
  omega

/-- What a push does: it has a slot exactly below 16, writes that one and counts up (42_control_transfer.md R94). -/
theorem push_eq_some {s t : State} {v : Word} :
    s.push v = some t ↔ s.sp.toNat < 16 ∧ t = (s.setSlot (slotIdx s.sp) v).setSp (s.sp + 1#5) := by
  by_cases h : s.sp.toNat < 16 <;> simp [State.push, h, eq_comm]

/-- The pointer after a push. -/
theorem sp_add_one {p : StackPtr} (h : p.toNat < 16) : (p + 1#5).toNat = p.toNat + 1 := by
  simp only [BitVec.toNat_add, BitVec.toNat_ofNat]
  omega

/-- The pointer after a pop. -/
theorem sp_sub_one {p : StackPtr} (h : 0 < p.toNat) : (p - 1#5).toNat = p.toNat - 1 := by
  have := p.isLt
  simp only [BitVec.toNat_sub, BitVec.toNat_ofNat]
  omega

/-- What a pop does: with 1 to 16 addresses held it reads the top one and counts down (42_control_transfer.md R92). -/
theorem pop_eq_some {s t : State} {v : Word} :
    s.pop = some (v, t) ↔
      0 < s.sp.toNat ∧ s.sp.toNat ≤ 16 ∧ v = s.slot (slotIdx (s.sp - 1#5)) ∧ t = s.setSp (s.sp - 1#5) := by
  by_cases h : 0 < s.sp.toNat ∧ s.sp.toNat ≤ 16
  · simp [State.pop, h, eq_comm]
  · simp [State.pop, h]
    omega

/-- A fetch answers nothing exactly past 4094 (20_memory.md R44). -/
theorem fetch_eq_none {s : State} : s.fetch = none ↔ 4094 < s.pc.toNat :=
  Memory.read16_eq_none

/-- What a fetched word is made of (20_memory.md R42). -/
theorem fetch_eq_some {s : State} {w : Word} :
    s.fetch = some w ↔
      ∃ hi lo, s.mem.read s.pc.toNat = some hi ∧ s.mem.read (s.pc.toNat + 1) = some lo ∧ w = wordOfBytes hi lo :=
  Memory.read16_eq_some

/-- The bound a fetched word's `pc` met. -/
theorem pc_le_of_fetch {s : State} {w : Word} (h : s.fetch = some w) : s.pc.toNat ≤ 4094 := by
  by_contra hc
  rw [fetch_eq_none.2 (by omega)] at h
  cases h

/-- The advance does not overflow where a fetch is legal (40_fetch_dispatch.md R83). -/
theorem add_two_toNat {p : Word} (h : p.toNat ≤ 4096) : (p + 2#16).toNat = p.toNat + 2 := by
  simp only [BitVec.toNat_add, BitVec.toNat_ofNat]
  omega

/-- The target of JMP and CALL is the address itself (30_encoding.md R64). -/
theorem targetAddr_toNat (addr : Addr) : (targetAddr addr).toNat = addr.toNat := by
  have := addr.isLt
  simp only [targetAddr, BitVec.toNat_setWidth]
  omega

@[simp] theorem advancePc_pc (s : State) : s.advancePc.pc = s.pc + 2#16 := rfl
@[simp] theorem advancePc_sp (s : State) : s.advancePc.sp = s.sp := rfl
@[simp] theorem advancePc_status (s : State) : s.advancePc.status = s.status := rfl
@[simp] theorem advancePc_mem (s : State) : s.advancePc.mem = s.mem := rfl
@[simp] theorem advancePc_reg (s : State) (i : RegIdx) : s.advancePc.reg i = s.reg i := rfl
@[simp] theorem advancePc_slot (s : State) (k : SlotIdx) : s.advancePc.slot k = s.slot k := rfl

@[simp] theorem raise_pc (s : State) (f : Fault) : (s.raise f).pc = s.pc := rfl
@[simp] theorem raise_sp (s : State) (f : Fault) : (s.raise f).sp = s.sp := rfl
@[simp] theorem raise_status (s : State) (f : Fault) : (s.raise f).status = .faulted f := rfl
@[simp] theorem raise_mem (s : State) (f : Fault) : (s.raise f).mem = s.mem := rfl
@[simp] theorem raise_reg (s : State) (f : Fault) (i : RegIdx) : (s.raise f).reg i = s.reg i := rfl
@[simp] theorem raise_slot (s : State) (f : Fault) (k : SlotIdx) : (s.raise f).slot k = s.slot k := rfl

@[simp] theorem skipIf_true (s : State) : s.skipIf true = s.setPc (s.pc + 2#16) := rfl
@[simp] theorem skipIf_false (s : State) : s.skipIf false = s := rfl

/-- A skip changes `pc` alone, by 2 when its condition holds (40_fetch_dispatch.md R88). -/
theorem skipIf_eq (s : State) (c : Bool) : s.skipIf c = s.setPc (if c then s.pc + 2#16 else s.pc) := by
  cases c <;> rfl

end Sys2Proof.Machine
end

