-- ==== Sys2Proof/Laws/Exec.lean ====
section
/-! SUPPORT. What a handler, a step and a host move can do, said once: the lemmas every proof about all instructions starts
from. -/

namespace Sys2Proof.Machine

/-- Everything a handler's next state can be: the status, the `pc`, one general register, or the call stack and the `pc`;
never memory. -/
theorem exec_next_cases {i : Instr} {s t : State} (h : exec i s = .next t) :
    (i = .halt ∧ t = s.halt) ∨
    (i = .cls ∧ t = s) ∨
    (i = .ret ∧ s.sp = 0#5 ∧ t = s.raise .stackUnderflow) ∨
    (i = .ret ∧ 0 < s.sp.toNat ∧ s.sp.toNat ≤ 16 ∧
      t = (s.setSp (s.sp - 1#5)).setPc (s.slot (slotIdx (s.sp - 1#5)))) ∨
    (∃ a, i = .call a ∧ s.sp = 16#5 ∧ t = s.raise .stackOverflow) ∨
    (∃ a, i = .call a ∧ s.sp.toNat < 16 ∧
      t = ((s.setSlot (slotIdx s.sp) s.pc).setSp (s.sp + 1#5)).setPc (targetAddr a)) ∨
    (∃ a, i = .jmp a ∧ t = s.setPc (targetAddr a)) ∨
    (((∃ x kk, i = .seImm x kk) ∨ (∃ x kk, i = .sneImm x kk) ∨ (∃ x y, i = .seReg x y)) ∧ ∃ c, t = s.skipIf c) ∨
    (∃ x v, destReg i = some x ∧ t = s.setReg x v) := by
  cases i with
  | halt => exact .inl ⟨rfl, by cases h; rfl⟩
  | cls => exact .inr (.inl ⟨rfl, by cases h; rfl⟩)
  | ret =>
    simp only [exec, execRet] at h
    split at h
    · exact .inr (.inr (.inl ⟨rfl, ‹_›, by cases h; rfl⟩))
    · split at h
      · obtain ⟨h1, h2, rfl, rfl⟩ := pop_eq_some.1 ‹_›
        exact .inr (.inr (.inr (.inl ⟨rfl, h1, h2, by cases h; rfl⟩)))
      · cases h
  | call a =>
    simp only [exec, execCall] at h
    split at h
    · exact .inr (.inr (.inr (.inr (.inl ⟨a, rfl, ‹_›, by cases h; rfl⟩))))
    · split at h
      · obtain ⟨h1, rfl⟩ := push_eq_some.1 ‹_›
        exact .inr (.inr (.inr (.inr (.inr (.inl ⟨a, rfl, h1, by cases h; rfl⟩)))))
      · cases h
  | jmp a => exact .inr (.inr (.inr (.inr (.inr (.inr (.inl ⟨a, rfl, by cases h; rfl⟩))))))
  | seImm x kk =>
    cases h
    exact .inr (.inr (.inr (.inr (.inr (.inr (.inr (.inl ⟨.inl ⟨x, kk, rfl⟩, _, rfl⟩)))))))
  | sneImm x kk =>
    cases h
    exact .inr (.inr (.inr (.inr (.inr (.inr (.inr (.inl ⟨.inr (.inl ⟨x, kk, rfl⟩), _, rfl⟩)))))))
  | seReg x y =>
    cases h
    exact .inr (.inr (.inr (.inr (.inr (.inr (.inr (.inl ⟨.inr (.inr ⟨x, y, rfl⟩), _, rfl⟩)))))))
  | ldImm | addImm | ldReg | or | and | xor | addReg =>
    cases h
    exact .inr (.inr (.inr (.inr (.inr (.inr (.inr (.inr ⟨_, _, rfl, rfl⟩)))))))

/-- In a state of the machine every handler answers a next state: nothing stops (93_implementation_defined.md, U4). -/
theorem exec_answers (i : Instr) {s : State} (h : s.sp.toNat ≤ 16) : ∃ t, exec i s = .next t := by
  cases i with
  | ret =>
    simp only [exec, execRet]
    split
    · exact ⟨_, rfl⟩
    · have : 0 < s.sp.toNat := by
        by_contra hc
        exact ‹¬s.sp = 0#5› (BitVec.eq_of_toNat_eq (by simp; omega))
      simp [State.pop, this, h]
  | call =>
    simp only [exec, execCall]
    split
    · exact ⟨_, rfl⟩
    · have : s.sp.toNat < 16 := by
        by_contra hc
        exact ‹¬s.sp = 16#5› (BitVec.eq_of_toNat_eq (by simp; omega))
      simp [State.push, this]
  | halt | cls | jmp | seImm | sneImm | seReg | ldImm | addImm | ldReg | or | and | xor | addReg => exact ⟨_, rfl⟩

/-- Everything a step's next state can be: idle while halted; the fetch fault; the fault of an illegal word; or the handler
of the decoded instruction, run with `pc` advanced (40_fetch_dispatch.md R80). -/
theorem step_next_cases {s t : State} (h : step s = .next t) :
    (s.status = .halted ∧ t = s) ∨
    (s.status = .running ∧ s.sp.toNat ≤ 16 ∧ s.fetch = none ∧ t = s.raise .fetchOutOfBounds) ∨
    (∃ w e, s.status = .running ∧ s.sp.toNat ≤ 16 ∧ s.fetch = some w ∧ decodeWord w = .error e ∧
      t = s.advancePc.raise (.unimplementedOpcode w)) ∨
    (∃ w i, s.status = .running ∧ s.sp.toNat ≤ 16 ∧ s.fetch = some w ∧ decodeWord w = .ok i ∧
      exec i s.advancePc = .next t) := by
  unfold step cycle at h
  split at h
  · unfold runningStep at h
    split at h
    · have hsp : s.sp.toNat ≤ 16 := by simpa [State.spLegal] using ‹s.spLegal = true›
      split at h
      · unfold dispatchWord at h
        split at h
        · exact .inr (.inr (.inr ⟨_, _, ‹_›, hsp, ‹_›, ‹_›, h⟩))
        · exact .inr (.inr (.inl ⟨_, _, ‹_›, hsp, ‹_›, ‹_›, by cases h; rfl⟩))
      · exact .inr (.inl ⟨‹_›, hsp, ‹_›, by cases h; rfl⟩)
    · cases h
  · exact .inl ⟨‹_›, by cases h; rfl⟩
  · cases h

/-- A step at a fetched word, in one equation. -/
theorem step_atWord {s : State} {w : Word} (h : AtWord s w) : step s = dispatchWord w s := by
  obtain ⟨hr, hsp, hw⟩ := h
  have : s.spLegal = true := by simpa [State.spLegal] using hsp
  simp [step, cycle, hr, runningStep, this, hw]

/-- Everything a host move's next state can be (70_reset_and_hazards.md R152). -/
theorem hostStep_next_cases {op : HostOp} {s t : State} (h : hostStep op s = .next t) :
    (op = .reset ∧ t = State.reset) ∨
    (op = .run ∧ ((s.status = .halted ∧ s.sp.toNat ≤ 16 ∧ t = s.setStatus .running) ∨ (s.status ≠ .halted ∧ t = s))) ∨
    (s.status ≠ .running ∧
      ((∃ a v, op = .writeMem a v ∧ t = s.setMem (s.mem.write a v)) ∨ (∃ v, op = .writePc v ∧ t = s.setPc v) ∨
        (∃ i v, op = .writeReg i v ∧ t = s.setReg i v) ∨ (∃ k v, op = .writeSlot k v ∧ t = s.setSlot k v) ∨
        (∃ v, op = .writeSp v ∧ v.toNat ≤ 16 ∧ t = s.setSp v))) := by
  have write : ∀ u : State, hostWrite s u = .next t → s.status ≠ .running ∧ t = u := by
    intro u hu
    unfold hostWrite at hu
    split at hu
    · cases hu
    · exact ⟨‹_›, by cases hu; rfl⟩
  cases op with
  | reset => exact .inl ⟨rfl, by cases h; rfl⟩
  | run =>
    refine .inr (.inl ⟨rfl, ?_⟩)
    replace h : hostRun s = .next t := h
    unfold hostRun at h
    split at h
    · split at h
      · exact .inl ⟨‹_›, by simpa [State.spLegal] using ‹s.spLegal = true›, by cases h; rfl⟩
      · cases h
    · exact .inr ⟨by simp [*], by cases h; rfl⟩
    · exact .inr ⟨by simp [*], by cases h; rfl⟩
  | writeMem a v => obtain ⟨h1, h2⟩ := write _ h; exact .inr (.inr ⟨h1, .inl ⟨_, _, rfl, h2⟩⟩)
  | writePc v => obtain ⟨h1, h2⟩ := write _ h; exact .inr (.inr ⟨h1, .inr (.inl ⟨_, rfl, h2⟩)⟩)
  | writeReg i v => obtain ⟨h1, h2⟩ := write _ h; exact .inr (.inr ⟨h1, .inr (.inr (.inl ⟨_, _, rfl, h2⟩))⟩)
  | writeSlot k v => obtain ⟨h1, h2⟩ := write _ h; exact .inr (.inr ⟨h1, .inr (.inr (.inr (.inl ⟨_, _, rfl, h2⟩)))⟩)
  | writeSp v =>
    replace h : hostWriteSp v s = .next t := h
    unfold hostWriteSp at h
    split at h
    · obtain ⟨h1, h2⟩ := write _ h
      exact .inr (.inr ⟨h1, .inr (.inr (.inr (.inr ⟨_, rfl, by simpa using ‹_›, h2⟩)))⟩)
    · cases h

end Sys2Proof.Machine
end

