-- ==== Sys2Proof/Laws/PerInstr.lean ====
section
/-! SUPPORT. The per-instruction families of LAWS.json: a statement about an instruction as syntax, and one lemma per
constructor. -/

namespace Sys2Proof.Laws.RowOfWord

/-- The word of an instruction matches the row of the opcode map (spec/30_encoding.md R66) that has its mnemonic. -/
def Statement (i : Instr) : Prop :=
  ∃ r ∈ opcodeTable, r.mnemonic = i.mnemonic ∧ encode i &&& r.mask = r.pattern

/-- A row of the map, found at its place in the table, shows the statement. -/
theorem of_row {i : Instr} (n : Nat) (r : OpRow) (hr : opcodeTable[n]? = some r) (hm : r.mnemonic = i.mnemonic)
    (h : encode i &&& r.mask = r.pattern) : Statement i :=
  ⟨r, List.mem_of_getElem? hr, hm, h⟩

theorem halt : Statement .halt := of_row 0 _ rfl rfl rfl
theorem cls : Statement .cls := of_row 1 _ rfl rfl rfl
theorem ret : Statement .ret := of_row 2 _ rfl rfl rfl
theorem jmp (addr : Addr) : Statement (.jmp addr) := of_row 3 _ rfl rfl (mask_op _ addr)
theorem call (addr : Addr) : Statement (.call addr) := of_row 4 _ rfl rfl (mask_op _ addr)

/-- A word of format XKK under its mask. -/
theorem mask_xkk (o : Nibble) (x : RegIdx) (kk : Byte) :
    (o ++ x ++ kk : BitVec (4 + 4 + 8)) &&& 0xF000#16 = o ++ 0x000#12 := by
  rw [xkk_eq_nnn]
  exact mask_op o _

theorem seImm (x : RegIdx) (kk : Byte) : Statement (.seImm x kk) := of_row 5 _ rfl rfl (mask_xkk _ x kk)
theorem sneImm (x : RegIdx) (kk : Byte) : Statement (.sneImm x kk) := of_row 6 _ rfl rfl (mask_xkk _ x kk)
theorem seReg (x y : RegIdx) : Statement (.seReg x y) := of_row 7 _ rfl rfl (mask_op_n _ x y _)
theorem ldImm (x : RegIdx) (kk : Byte) : Statement (.ldImm x kk) := of_row 8 _ rfl rfl (mask_xkk _ x kk)
theorem addImm (x : RegIdx) (kk : Byte) : Statement (.addImm x kk) := of_row 9 _ rfl rfl (mask_xkk _ x kk)
theorem ldReg (x y : RegIdx) : Statement (.ldReg x y) := of_row 10 _ rfl rfl (mask_op_n _ x y _)
theorem or (x y : RegIdx) : Statement (.or x y) := of_row 11 _ rfl rfl (mask_op_n _ x y _)
theorem and (x y : RegIdx) : Statement (.and x y) := of_row 12 _ rfl rfl (mask_op_n _ x y _)
theorem xor (x y : RegIdx) : Statement (.xor x y) := of_row 13 _ rfl rfl (mask_op_n _ x y _)
theorem addReg (x y : RegIdx) : Statement (.addReg x y) := of_row 14 _ rfl rfl (mask_op_n _ x y _)

end Sys2Proof.Laws.RowOfWord
end

