-- ==== Sys2Proof/Tests/Slice0.lean ====
section
/-! SUPPORT. The model's own tests: small, one step each, expected results from spec/95_test_vectors.md (the vector's name in
the comment) or worked out by hand from the rule named; and for each obligation with hypotheses a witness that meets them. -/

namespace Sys2Proof.Tests

open Machine

/-! ### Well-formedness (30_encoding.md R70): an ill-formed line for each check -/

theorem test_wf_accepts : AsmLine.wellFormed ⟨.SE, [.reg 15, .num 0xFF]⟩ = true := by decide
theorem test_wf_jmp_to_the_top : AsmLine.wellFormed ⟨.JMP, [.num 0xFFF]⟩ = true := by decide
theorem test_wf_refuses_missing_operand : AsmLine.wellFormed ⟨.LD, [.reg 1]⟩ = false := by decide
theorem test_wf_refuses_extra_operand : AsmLine.wellFormed ⟨.CLS, [.num 0]⟩ = false := by decide
theorem test_wf_refuses_number_first : AsmLine.wellFormed ⟨.ADD, [.num 1, .reg 1]⟩ = false := by decide
theorem test_wf_refuses_sne_of_registers : AsmLine.wellFormed ⟨.SNE, [.reg 1, .reg 2]⟩ = false := by decide
theorem test_wf_refuses_or_with_number : AsmLine.wellFormed ⟨.OR, [.reg 1, .num 2]⟩ = false := by decide
theorem test_wf_refuses_register_16 : AsmLine.wellFormed ⟨.XOR, [.reg 16, .reg 0]⟩ = false := by decide
theorem test_wf_refuses_wide_immediate : AsmLine.wellFormed ⟨.ADD, [.reg 1, .num 0x100]⟩ = false := by decide
theorem test_wf_refuses_wide_address : AsmLine.wellFormed ⟨.CALL, [.num 0x1000]⟩ = false := by decide

/-! ### Decoding: every constructor by a word written out from R66; K is the series of section 2.1 -/

theorem test_decode_halt : decodeWord 0x0000#16 = .ok .halt := by decide  -- K1
theorem test_decode_cls : decodeWord 0x00E0#16 = .ok .cls := by decide  -- K2
theorem test_decode_ret : decodeWord 0x00EE#16 = .ok .ret := by decide  -- K3
theorem test_decode_jmp : decodeWord 0x1FFF#16 = .ok (.jmp 0xFFF#12) := by decide  -- K4
theorem test_decode_call : decodeWord 0x2100#16 = .ok (.call 0x100#12) := by decide  -- K5, X1
theorem test_decode_se_imm : decodeWord 0x3A7B#16 = .ok (.seImm 0xA#4 0x7B#8) := by decide  -- K6
theorem test_decode_sne_imm : decodeWord 0x4F00#16 = .ok (.sneImm 0xF#4 0x00#8) := by decide  -- K7
theorem test_decode_se_reg : decodeWord 0x5CD0#16 = .ok (.seReg 0xC#4 0xD#4) := by decide  -- K8
theorem test_decode_ld_imm : decodeWord 0x613C#16 = .ok (.ldImm 0x1#4 0x3C#8) := by decide  -- K9
theorem test_decode_add_imm : decodeWord 0x72FF#16 = .ok (.addImm 0x2#4 0xFF#8) := by decide  -- K10
theorem test_decode_ld_reg : decodeWord 0x8200#16 = .ok (.ldReg 0x2#4 0x0#4) := by decide  -- A1
theorem test_decode_or : decodeWord 0x8AB1#16 = .ok (.or 0xA#4 0xB#4) := by decide  -- A18
theorem test_decode_and : decodeWord 0x8312#16 = .ok (.and 0x3#4 0x1#4) := by decide  -- A5
theorem test_decode_xor : decodeWord 0x8EF3#16 = .ok (.xor 0xE#4 0xF#4) := by decide  -- K12
theorem test_decode_add_reg : decodeWord 0x8014#16 = .ok (.addReg 0x0#4 0x1#4) := by decide  -- K11

/-- Words next to legal ones that are illegal: E2, E3, E4, E6, E9, E11, E15 and E24. -/
theorem test_decode_refuses_group_0 : decodeWord 0x00E1#16 = .error (.unimplementedOpcode 0x00E1#16) ∧
    decodeWord 0x00ED#16 = .error (.unimplementedOpcode 0x00ED#16) ∧
    decodeWord 0x00EF#16 = .error (.unimplementedOpcode 0x00EF#16) ∧
    decodeWord 0x01E0#16 = .error (.unimplementedOpcode 0x01E0#16) := by decide
theorem test_decode_refuses_others : decodeWord 0x5011#16 = .error (.unimplementedOpcode 0x5011#16) ∧
    decodeWord 0x8015#16 = .error (.unimplementedOpcode 0x8015#16) ∧
    decodeWord 0x8FFF#16 = .error (.unimplementedOpcode 0x8FFF#16) ∧
    decodeWord 0xFFFF#16 = .error (.unimplementedOpcode 0xFFFF#16) := by decide

/-- A stream of bytes: the word is the first two, high byte first (K14); one byte is no instruction. -/
theorem test_decode_bytes : decode [0x12#8, 0x34#8, 0x56#8] = .ok (.jmp 0x234#12, [0x56#8]) := by decide
theorem test_decode_truncated : decode [0x12#8] = .error .truncated := by decide

theorem test_decode_table_word : decodeTableWord 16 0x8EF3 = some (.xor 0xE#4 0xF#4) := by decide

/-- R70's example forms; `SE` with a register picks SE reg. -/
theorem test_assemble_ld : assemble "LD V1, 0x3C" = some 0x613C#16 := by decide
theorem test_assemble_se : assemble "SE VC, VD" = some 0x5CD0#16 := by decide
theorem test_assemble_halt : assemble "HALT" = some 0x0000#16 := by decide
theorem test_assemble_refuses : assemble "ADD V1, 256" = none := by decide

/-! ### One step -/

/-- A running engine with this `pc`, `sp` and memory, all else as after reset. -/
def running (pc : Word) (sp : StackPtr) (mem : Memory) : State :=
  { State.reset with pc := pc, sp := sp, mem := mem, status := .running }

/-- A view of the next state, if there is one. -/
def after {α : Type} (o : Host.Outcome State Fault Refusal) (view : State → α) : Option α :=
  match o with
  | .next t => some (view t)
  | .fault _ => none
  | .refused _ => none

/-- H1 and Y1: a zero word is HALT; `pc` is two past it. -/
theorem test_halt : after (step (running 0x004#16 0#5 [])) (fun t => (t.status, t.pc)) = some (.halted, 0x006#16) := by decide

/-- Y2: HALT at the last fetchable address halts with `pc = 0x1000`. -/
theorem test_halt_top : after (step (running 0xFFE#16 3#5 [])) (fun t => (t.status, t.pc, t.sp)) =
    some (.halted, 0x1000#16, 3#5) := by decide

/-- Y4, Y5: CLS only advances, at 4094 too (F1). -/
theorem test_cls : after (step (running 0xFFE#16 0#5 [(0xFFF, 0xE0#8)])) (fun t => (t.status, t.pc)) =
    some (.running, 0x1000#16) := by decide

/-- T1. -/
theorem test_jmp : after (step (running 0x00C#16 0#5 [(0x00C, 0x10#8), (0x00D, 0x06#8)])) (fun t => t.pc) =
    some 0x006#16 := by decide

/-- T5: the sixteenth entry, odd target. -/
theorem test_call_sixteenth : after (step (running 0x0FE#16 15#5 [(0x0FE, 0x2A#8), (0x0FF, 0xBD#8)]))
    (fun t => (t.pc, t.sp, t.slot 15#4)) = some (0xABD#16, 16#5, 0x0100#16) := by decide

/-- T7: the seventeenth CALL faults; the top slot keeps its value. -/
theorem test_call_full : after (step ((running 0x050#16 16#5 [(0x050, 0x21#8)]).setSlot 15#4 0x0BEE#16))
    (fun t => (t.status, t.pc, t.sp, t.slot 15#4)) = some (.faulted .stackOverflow, 0x052#16, 16#5, 0x0BEE#16) := by decide

/-- T12: the higher slot first, and it keeps its value. -/
theorem test_ret : after (step (((running 0x010#16 2#5 [(0x011, 0xEE#8)]).setSlot 0#4 0x0111#16).setSlot 1#4 0x0333#16))
    (fun t => (t.pc, t.sp, t.slot 1#4)) = some (0x333#16, 1#5, 0x0333#16) := by decide

/-- T8. -/
theorem test_ret_empty : after (step (running 0x104#16 0#5 [(0x105, 0xEE#8)])) (fun t => (t.status, t.pc, t.sp)) =
    some (.faulted .stackUnderflow, 0x106#16, 0#5) := by decide

/-- S3: the VALUE of V3 is 7, not its index 3, so no skip. -/
theorem test_se_imm_value : after (step ((running 0x040#16 0#5 [(0x040, 0x33#8), (0x041, 0x03#8)]).setReg 3#4 0x07#8))
    (fun t => t.pc) = some 0x042#16 := by decide

/-- S4. -/
theorem test_se_imm_taken : after (step ((running 0x040#16 0#5 [(0x040, 0x33#8), (0x041, 0x07#8)]).setReg 3#4 0x07#8))
    (fun t => t.pc) = some 0x044#16 := by decide

/-- S5. -/
theorem test_sne_imm_taken : after (step ((running 0x040#16 0#5 [(0x040, 0x43#8), (0x041, 0x03#8)]).setReg 3#4 0x07#8))
    (fun t => t.pc) = some 0x044#16 := by decide

/-- S7: at an odd `pc`, not taken. -/
theorem test_sne_imm_not_taken : after (step ((running 0x003#16 0#5 [(0x003, 0x40#8), (0x004, 0xFF#8)]).setReg 0#4 0xFF#8))
    (fun t => t.pc) = some 0x005#16 := by decide

/-- S9. -/
theorem test_se_reg_not_taken :
    after (step (((running 0x020#16 0#5 [(0x020, 0x51#8), (0x021, 0x40#8)]).setReg 1#4 0x2A#8).setReg 4#4 0x2B#8))
      (fun t => t.pc) = some 0x022#16 := by decide

/-- S10: a register equals itself. -/
theorem test_se_reg_same : after (step ((running 0x020#16 0#5 [(0x020, 0x57#8), (0x021, 0x70#8)]).setReg 7#4 0x99#8))
    (fun t => t.pc) = some 0x024#16 := by decide

/-- I2: register 15 as destination. -/
theorem test_ld_imm : after (step ((running 0x000#16 0#5 [(0x000, 0x6F#8)]).setReg 15#4 0x55#8)) (fun t => (t.pc, t.reg 15#4)) =
    some (0x002#16, 0x00#8) := by decide

/-- I8: the sum wraps and register 15 keeps its value. -/
theorem test_add_imm_wraps :
    after (step (((running 0x000#16 0#5 [(0x000, 0x71#8), (0x001, 0xFF#8)]).setReg 1#4 0xFF#8).setReg 15#4 0x11#8))
      (fun t => (t.reg 1#4, t.reg 15#4)) = some (0xFE#8, 0x11#8) := by decide

/-- A1: the source keeps its value. -/
theorem test_ld_reg :
    after (step (((running 0x210#16 0#5 [(0x210, 0x82#8)]).setReg 0#4 0xF0#8).setReg 2#4 0x11#8))
      (fun t => (t.reg 2#4, t.reg 0#4)) = some (0xF0#8, 0xF0#8) := by decide

/-- A3. -/
theorem test_or :
    after (step (((running 0x212#16 0#5 [(0x212, 0x82#8), (0x213, 0x11#8)]).setReg 2#4 0xF0#8).setReg 1#4 0x3C#8))
      (fun t => t.reg 2#4) = some 0xFC#8 := by decide

/-- A5. -/
theorem test_and :
    after (step (((running 0x222#16 0#5 [(0x222, 0x83#8), (0x223, 0x12#8)]).setReg 3#4 0xF0#8).setReg 1#4 0x3C#8))
      (fun t => t.reg 3#4) = some 0x30#8 := by decide

/-- A8. -/
theorem test_xor :
    after (step (((running 0x226#16 0#5 [(0x226, 0x84#8), (0x227, 0x13#8)]).setReg 4#4 0xF0#8).setReg 1#4 0x3C#8))
      (fun t => t.reg 4#4) = some 0xCC#8 := by decide

/-- A12: no carry into register 15. -/
theorem test_add_reg_no_carry :
    after (step ((((running 0x000#16 0#5 [(0x000, 0x80#8), (0x001, 0x14#8)]).setReg 0#4 0xFA#8).setReg 1#4 0x0A#8).setReg
      15#4 0x77#8)) (fun t => (t.reg 0#4, t.reg 15#4)) = some (0x04#8, 0x77#8) := by decide

/-- A14: both operands are the old value. -/
theorem test_add_reg_doubles : after (step ((running 0x000#16 0#5 [(0x000, 0x87#8), (0x001, 0x74#8)]).setReg 7#4 0x81#8))
    (fun t => t.reg 7#4) = some 0x02#8 := by decide

/-- X3: the source's own illegal word. -/
theorem test_illegal : after (step (running 0x000#16 0#5 [(0x000, 0x90#8)])) (fun t => (t.status, t.pc)) =
    some (.faulted (.unimplementedOpcode 0x9000#16), 0x002#16) := by decide

/-- F2: `mem[4095]` exists, `mem[4096]` does not. -/
theorem test_fetch_4095 : after (step (running 0xFFF#16 0#5 [])) (fun t => (t.status, t.pc)) =
    some (.faulted .fetchOutOfBounds, 0xFFF#16) := by decide

/-- F4: no wrap to address 0. -/
theorem test_fetch_ffff : after (step (running 0xFFFF#16 0#5 [])) (fun t => (t.status, t.pc)) =
    some (.faulted .fetchOutOfBounds, 0xFFFF#16) := by decide

/-- H1: reset, then run: one HALT. -/
theorem test_reset_then_run : after (hostStep .run State.reset) (fun s => after (step s) (fun t => (t.status, t.pc))) =
    some (some (.halted, 0x002#16)) := by decide

/-- H6: the host's load of `sp = 17` is refused. -/
theorem test_sp_17 : hostStep (.writeSp 17#5) State.reset = .refused .spOutOfRange := rfl

/-- The instruction placed from reset is the next one run. -/
theorem test_placed : after (step (State.reset.withFetchWord 16 0x61F0)) (fun t => (t.reg 1#4, t.pc)) =
    some (0xF0#8, 0x002#16) := by decide

/-! ### Memory -/

theorem test_write_keeps_order : Memory.write [(1, 0x11#8), (3, 0x33#8)] 0x002#12 0x22#8 =
    [(1, 0x11#8), (2, 0x22#8), (3, 0x33#8)] := by decide
theorem test_write_zero_unlists : Memory.write [(1, 0x11#8), (3, 0x33#8)] 0x003#12 0x00#8 = [(1, 0x11#8)] := by decide

/-! ### Witnesses: for each obligation with hypotheses, states and operands that meet them together -/

/-- A running engine about to fetch a word. -/
theorem atWord_running {pc w : Word} {sp : StackPtr} {mem : Memory} (hsp : sp.toNat ≤ 16)
    (hf : (running pc sp mem).fetch = some w) : AtWord (running pc sp mem) w :=
  ⟨rfl, hsp, hf⟩

theorem witness_encode_decode : decodeWord 0x8FF4#16 = .ok (.addReg 0xF#4 0xF#4) := by
  decide

theorem witness_opcode_map : (⟨"SE_reg", 0xF00F#16, 0x5000#16⟩ : OpRow) ∈ opcodeTable ∧
    OpRow.matches ⟨"SE_reg", 0xF00F#16, 0x5000#16⟩ 0x5FF0#16 = true ∧
    decodeWord 0x5FF0#16 = .ok (.seReg 0xF#4 0xF#4) := by decide

theorem witness_assembly : AsmLine.toInstr ⟨.CALL, [.num 0xFFF]⟩ = some (.call 0xFFF#12) := by decide

/-- StepRunsDecodedInstruction and PcAfterStep, at the last fetchable address. -/
theorem witness_step_runs : (running 0xFFE#16 16#5 [(0xFFE, 0x61#8), (0xFFF, 0x07#8)]).mem.read 0xFFE = some 0x61#8 ∧
    (running 0xFFE#16 16#5 [(0xFFE, 0x61#8), (0xFFF, 0x07#8)]).mem.read 0xFFF = some 0x07#8 ∧
    decode [0x61#8, 0x07#8] = .ok (.ldImm 0x1#4 0x07#8, []) := by decide

theorem witness_pc_after : AtWord (running 0xFFE#16 16#5 [(0xFFE, 0x61#8), (0xFFF, 0x07#8)]) 0x6107#16 ∧
    decodeWord 0x6107#16 = .ok (.ldImm 0x1#4 0x07#8) :=
  ⟨atWord_running (by decide) (by decide), by decide⟩

theorem witness_fetch_out_of_bounds :
    (running 0xFFF#16 0#5 []).status = .running ∧ 4094 < (running 0xFFF#16 0#5 []).pc.toNat := by decide

theorem witness_illegal_word : AtWord (running 0x000#16 0#5 [(0x000, 0x90#8)]) 0x9000#16 ∧
    ∀ i, decodeWord 0x9000#16 ≠ .ok i :=
  ⟨atWord_running (by decide) (by decide), fun i h => by
    rw [show decodeWord 0x9000#16 = .error (.unimplementedOpcode 0x9000#16) by decide] at h
    cases h⟩

theorem witness_halted : State.reset.status = .halted := rfl

theorem witness_faulted : (State.reset.raise .stackOverflow).status = .faulted .stackOverflow ∧
    hostStep .reset (State.reset.raise .stackOverflow) = .next State.reset := ⟨rfl, rfl⟩

/-- StatusAfterStep and FaultsArePrecise: each kind of fault has its cause in some running state. -/
theorem witness_fault_causes :
    FaultCause (running 0x050#16 16#5 [(0x050, 0x21#8)]) .stackOverflow ∧
    FaultCause (running 0x104#16 0#5 [(0x105, 0xEE#8)]) .stackUnderflow ∧
    FaultCause (running 0x000#16 0#5 [(0x000, 0x90#8)]) (.unimplementedOpcode 0x9000#16) ∧
    FaultCause (running 0xFFF#16 0#5 []) .fetchOutOfBounds :=
  ⟨⟨by decide, 0x2100#16, by decide, by decide⟩, ⟨by decide, by decide⟩, ⟨by decide, by decide⟩,
    by show 4094 < (0xFFF#16).toNat; decide⟩

theorem witness_faults_are_precise : ∃ t, step (running 0x050#16 16#5 [(0x050, 0x21#8)]) = .next t ∧
    t.status = .faulted .stackOverflow := ⟨_, rfl, rfl⟩

/-- The pattern clauses of the instruction statements: a word of every top nibble and `n`. -/
theorem witness_patterns : fieldOp 0x1FFF#16 = 0x1#4 ∧ fieldOp 0x2000#16 = 0x2#4 ∧ fieldOp 0x3FFF#16 = 0x3#4 ∧
    fieldOp 0x4000#16 = 0x4#4 ∧ fieldOp 0x5FF0#16 = 0x5#4 ∧ fieldN 0x5FF0#16 = 0x0#4 ∧ fieldOp 0x6FFF#16 = 0x6#4 ∧
    fieldOp 0x7FFF#16 = 0x7#4 ∧ fieldOp 0x8FF4#16 = 0x8#4 ∧ fieldN 0x8FF4#16 = 0x4#4 ∧ fieldN 0x8FF3#16 = 0x3#4 ∧
    fieldN 0x8FF2#16 = 0x2#4 ∧ fieldN 0x8FF1#16 = 0x1#4 ∧ fieldN 0x8FF0#16 = 0x0#4 := by decide

theorem witness_cls_at_word : AtWord (running 0x010#16 0#5 [(0x011, 0xE0#8)]) 0x00E0#16 :=
  atWord_running (by decide) (by decide)

/-- The depths of CALL and RET at the ends of their ranges. -/
theorem witness_depths : (running 0#16 15#5 []).sp.toNat < 16 ∧ (running 0#16 16#5 []).sp.toNat = 16 ∧
    0 < (running 0#16 1#5 []).sp.toNat ∧ (running 0#16 16#5 []).sp.toNat ≤ 16 ∧ (running 0#16 0#5 []).sp.toNat = 0 := by decide

/-- The slot clauses of CALL and RET: slot 15 is the one written at `sp = 15` and the one read at `sp = 16`. -/
theorem witness_slots : (15#4).toNat = (15#5).toNat ∧ (14#4).toNat ≠ (15#5).toNat ∧ (15#4).toNat + 1 = (16#5).toNat := by decide

/-- CallRetRoundTrip: CALL 0x100 at 0, RET at 0x100, nothing between them. -/
theorem witness_round_trip : ∃ t, AtWord (running 0#16 15#5 [(0x000, 0x21#8), (0x101, 0xEE#8)]) 0x2100#16 ∧
    decodeWord 0x2100#16 = .ok (.call 0x100#12) ∧
    step (running 0#16 15#5 [(0x000, 0x21#8), (0x101, 0xEE#8)]) = .next t ∧ StepsAbove 16 t t ∧ t.sp.toNat = 15 + 1 ∧
    AtWord t 0x00EE#16 :=
  ⟨_, atWord_running (by decide) (by decide), by decide, rfl, .refl _, rfl, rfl, by decide, by decide⟩

theorem witness_live_slots : ∃ t, step (running 0#16 15#5 [(0x000, 0x21#8)]) = .next t ∧ (14#4).toNat < (15#5).toNat :=
  ⟨_, rfl, by decide⟩

/-- Both sides of each skip's condition. -/
theorem witness_skips : State.reset.reg 15#4 = 0x00#8 ∧ State.reset.reg 15#4 ≠ 0xFF#8 ∧
    State.reset.reg 0#4 = State.reset.reg 15#4 ∧ (State.reset.setReg 15#4 0x01#8).reg 0#4 ≠
      (State.reset.setReg 15#4 0x01#8).reg 15#4 := by decide

theorem witness_destination : (∃ t, exec (.addReg 15#4 1#4) State.reset = .next t) ∧ destReg (.addReg 15#4 1#4) ≠ some 1#4 ∧
    destReg .ret ≠ some 15#4 := ⟨⟨_, rfl⟩, by decide, by decide⟩

/-- OnlyTheOperandsMatter: the two states differ in a register SE imm does not read. -/
theorem witness_operands : (∀ j ∈ readRegs (.seImm 1#4 0x00#8), (State.reset.setReg 2#4 0x55#8).reg j = State.reset.reg j) ∧
    (State.reset.setReg 2#4 0x55#8).reg 2#4 ≠ State.reset.reg 2#4 ∧ (∃ t, exec (.seImm 1#4 0x00#8) State.reset = .next t) :=
  ⟨by decide, by decide, ⟨_, rfl⟩⟩

/-- StepReadsOnlyTheFetchedWord: another memory with the same word at `pc`. -/
theorem witness_same_word :
    ({ running 0#16 0#5 [] with mem := [(0x100, 0x90#8)] } : State).fetch = (running 0#16 0#5 []).fetch := by decide

theorem witness_inv : (running 0#16 15#5 [(0x000, 0x21#8)]).Inv ∧
    ∃ t, step (running 0#16 15#5 [(0x000, 0x21#8)]) = .next t ∧ t.sp = 16#5 :=
  ⟨⟨by decide, by decide⟩, _, rfl, rfl⟩

theorem witness_pc_bounded : (running 0xFFE#16 0#5 [(0xFFE, 0x30#8)]).PcBounded ∧
    ∃ t, step (running 0xFFE#16 0#5 [(0xFFE, 0x30#8)]) = .next t ∧ t.pc.toNat = 4098 :=
  ⟨⟨by decide, by decide⟩, _, rfl, by decide⟩

theorem witness_reachable : Reachable (State.reset.setStatus .running) :=
  .host State.reset _ .run .reset rfl

/-- RunEndsInTwoWaysOrNever: a run that halts and a run that faults. -/
theorem witness_run_ends : EndsHalted (running 0#16 0#5 []) ∧ EndsFaulted (running 0xFFF#16 0#5 []) .fetchOutOfBounds :=
  ⟨⟨1, _, rfl, rfl⟩, ⟨1, _, rfl, rfl⟩⟩

/-- T3: a run that never ends, JMP to its own address. -/
theorem witness_run_never_ends : NeverEnds (running 0x234#16 0#5 [(0x234, 0x12#8), (0x235, 0x34#8)]) := by
  intro k
  induction k with
  | zero => exact ⟨_, rfl, rfl⟩
  | succ k ih => exact ih

theorem witness_host_writes : State.reset.Inv ∧ State.reset.status ≠ .running ∧ (16#5).toNat ≤ 16 :=
  ⟨⟨by decide, by decide⟩, by decide, by decide⟩

theorem witness_run_command : State.reset.status = .halted ∧ State.reset.sp.toNat ≤ 16 ∧
    (running 0#16 0#5 []).status ≠ .halted := by decide

theorem witness_no_move : (running 0#16 0#5 []).status = .running ∧
    hostStep .reset (running 0#16 0#5 []) = .next State.reset ∧
    hostStep .run (running 0#16 0#5 []) = .next (running 0#16 0#5 []) := ⟨rfl, rfl, rfl⟩

theorem witness_sp_17 : 16 < (17#5).toNat ∧ 16 < (State.reset.setSp 17#5).sp.toNat ∧
    (State.reset.setSp 17#5).status = .halted ∧ (running 0#16 17#5 []).status = .running := by decide

theorem witness_placed : Memory.wf State.reset.mem = true ∧ decodeTableWord 16 0x8FF4 = some (.addReg 0xF#4 0xF#4) := by decide

end Sys2Proof.Tests
end

section
/-! PROOFS. The step at a fetched word that decodes, and CLS (spec/40_fetch_dispatch.md R80, R83; spec/41_system.md R91). -/

namespace Sys2Proof.Machine

/-- A step at a word that decodes is the instruction's handler in the advanced state (R80, R83). -/
theorem step_eq_exec_of_decodeWord {s : State} {w : Word} {i : Instr} (h : AtWord s w) (hd : decodeWord w = .ok i) :
    step s = exec i s.advancePc := by
  rw [step_atWord h, dispatchWord, hd]

/-- Where a word was fetched, the advance of `pc` adds 2 without wrap-around (R83). -/
theorem advancePc_pc_toNat {s : State} {w : Word} (h : s.fetch = some w) :
    s.advancePc.pc.toNat = s.pc.toNat + 2 :=
  have := pc_le_of_fetch h
  add_two_toNat (by omega)

/-- The handler of CLS answers the state it is given (R91). -/
@[simp] theorem exec_cls (s : State) : exec .cls s = .next s := rfl

/-- The advance of `pc` leaves registers, call stack and memory alone (R83). -/
theorem advancePc_frame (s : State) : SameRegs s s.advancePc ∧ SameStack s s.advancePc ∧ SameMem s s.advancePc :=
  ⟨advancePc_reg s, ⟨advancePc_sp s, advancePc_slot s⟩, fun a => by rw [advancePc_mem]⟩

/-- Settles O18: the handler's next state is its own state, so the step's is the advanced one. -/
theorem clsHasNoEffect : Obligations.ClsHasNoEffect := by
  have hd : decodeWord 0x00E0#16 = .ok .cls := by decide
  refine ⟨hd, fun s => ?handler, fun s h => ?step⟩
  case handler =>
    exact ⟨s, exec_cls s, rfl, rfl, fun _ => rfl, ⟨rfl, fun _ => rfl⟩, fun _ => rfl⟩
  case step =>
    have hstep : step s = .next s.advancePc := by rw [step_eq_exec_of_decodeWord h hd, exec_cls]
    obtain ⟨hrunning, -, hfetch⟩ := h
    exact ⟨s.advancePc, hstep, advancePc_pc_toNat hfetch, (advancePc_status s).trans hrunning, advancePc_frame s⟩

end Sys2Proof.Machine
end

section
/-! PROOFS. JMP (spec/42_control_transfer.md R93). -/

namespace Sys2Proof.Machine

/-- A word of top nibble 1 is a JMP: it is outside group 0, and its test is the next one (R65). -/
theorem decodeWord_of_op_one {w : Word} (h : fieldOp w = 0x1#4) : decodeWord w = .ok (.jmp (fieldAddr w)) := by
  have hne : fieldOp w ≠ 0x0#4 := by rw [h]; decide
  rw [decodeWord_of_op hne, if_pos h]

/-- The handler of JMP writes the zero-extended address to `pc` (R93). -/
@[simp] theorem exec_jmp (addr : Addr) (s : State) : exec (.jmp addr) s = .next (s.setPc (targetAddr addr)) := rfl

/-- A write of `pc` leaves registers, call stack and memory alone. -/
theorem setPc_frame (s : State) (v : Word) : SameRegs s (s.setPc v) ∧ SameStack s (s.setPc v) ∧ SameMem s (s.setPc v) :=
  ⟨setPc_reg s v, ⟨setPc_sp s v, setPc_slot s v⟩, fun a => by rw [setPc_mem]⟩

/-- Settles O19: the next state is the old one with `pc` set to the zero-extended address. -/
theorem jmpSetsPc : Obligations.JmpSetsPc := by
  refine ⟨fun w => decodeWord_of_op_one, fun addr s => ?handler⟩
  case handler =>
    obtain ⟨hregs, hstack, hmem⟩ := setPc_frame s (targetAddr addr)
    exact ⟨s.setPc (targetAddr addr), exec_jmp addr s, targetAddr_toNat addr, hregs, hstack, hmem, setPc_status s _⟩

end Sys2Proof.Machine
end

section
/-! PROOFS. The skips against an immediate, SE imm and SNE imm (spec/43_skip.md R96, R97). -/

namespace Sys2Proof.Machine

/-- A word of top nibble 3 is an SE imm: the tests for nibbles 1 and 2 fail before its own (R65). -/
theorem decodeWord_of_op_three {w : Word} (h : fieldOp w = 0x3#4) :
    decodeWord w = .ok (.seImm (fieldX w) (fieldKk w)) := by
  have hne : fieldOp w ≠ 0x0#4 := by rw [h]; decide
  rw [decodeWord_of_op hne, h, if_neg (by decide), if_neg (by decide), if_pos rfl]

/-- A word of top nibble 4 is an SNE imm: the tests for nibbles 1 to 3 fail before its own (R65). -/
theorem decodeWord_of_op_four {w : Word} (h : fieldOp w = 0x4#4) :
    decodeWord w = .ok (.sneImm (fieldX w) (fieldKk w)) := by
  have hne : fieldOp w ≠ 0x0#4 := by rw [h]; decide
  rw [decodeWord_of_op hne, h, if_neg (by decide), if_neg (by decide), if_neg (by decide), if_pos rfl]

/-- The equality test is equality of the two values (R107). -/
@[simp] theorem testEq_eq_decide (a b : Byte) : testEq a b = decide (a = b) := beq_eq_decide a b

/-- The inequality test is inequality of the two values (R107). -/
@[simp] theorem testNe_eq_decide (a b : Byte) : testNe a b = decide (a ≠ b) := by
  rw [testNe, bne, beq_eq_decide, decide_not]

/-- The handler of SE imm: a skip on equality of the register's value and the immediate (R96). -/
@[simp] theorem exec_seImm (x : RegIdx) (kk : Byte) (s : State) :
    exec (.seImm x kk) s = .next (s.skipIf (decide (s.reg x = kk))) := by
  rw [← testEq_eq_decide]; rfl

/-- The handler of SNE imm: a skip on inequality of the register's value and the immediate (R97). -/
@[simp] theorem exec_sneImm (x : RegIdx) (kk : Byte) (s : State) :
    exec (.sneImm x kk) s = .next (s.skipIf (decide (s.reg x ≠ kk))) := by
  rw [← testNe_eq_decide]; rfl

/-- A skip whose condition holds adds 2 to `pc` (R88). -/
theorem skipIf_pc_of_pos (s : State) {p : Prop} [Decidable p] (h : p) : (s.skipIf (decide p)).pc = s.pc + 2#16 := by
  rw [decide_eq_true h, skipIf_true, setPc_pc]

/-- A skip whose condition fails keeps `pc` (R88). -/
theorem skipIf_pc_of_neg (s : State) {p : Prop} [Decidable p] (h : ¬p) : (s.skipIf (decide p)).pc = s.pc := by
  rw [decide_eq_false h, skipIf_false]

/-- A skip keeps the status, taken or not (R88). -/
@[simp] theorem skipIf_status (s : State) (c : Bool) : (s.skipIf c).status = s.status := by
  rw [skipIf_eq, setPc_status]

/-- A skip leaves registers, call stack and memory alone, taken or not (R88). -/
theorem skipIf_frame (s : State) (c : Bool) : SameRegs s (s.skipIf c) ∧ SameStack s (s.skipIf c) ∧ SameMem s (s.skipIf c) := by
  rw [skipIf_eq]
  exact setPc_frame s _

/-- Settles O26: the handler is a skip on the equality, so each side of it gives its own `pc`. -/
theorem seImmSkipsOnEqual : Obligations.SeImmSkipsOnEqual := by
  refine ⟨fun w => decodeWord_of_op_three, fun x kk s => ?handler⟩
  case handler =>
    obtain ⟨hregs, hstack, hmem⟩ := skipIf_frame s (decide (s.reg x = kk))
    exact ⟨_, exec_seImm x kk s, skipIf_pc_of_pos s, skipIf_pc_of_neg s, hregs, hstack, hmem, skipIf_status s _⟩

/-- Settles O27: the handler is a skip on the inequality, so each side of it gives its own `pc`. -/
theorem sneImmSkipsOnDifferent : Obligations.SneImmSkipsOnDifferent := by
  refine ⟨fun w => decodeWord_of_op_four, fun x kk s => ?handler⟩
  case handler =>
    obtain ⟨hregs, hstack, hmem⟩ := skipIf_frame s (decide (s.reg x ≠ kk))
    exact ⟨_, exec_sneImm x kk s, skipIf_pc_of_pos s, fun heq => skipIf_pc_of_neg s (not_not_intro heq),
      hregs, hstack, hmem, skipIf_status s _⟩

end Sys2Proof.Machine
end

section
/-! PROOFS. The register-immediate instructions, LD imm and ADD imm (spec/44_immediate.md R100, R101). -/

namespace Sys2Proof.Machine

/-- A word of top nibble 6 is an LD imm: the tests for nibbles 1 to 5 fail before its own (R65). -/
theorem decodeWord_of_op_six {w : Word} (h : fieldOp w = 0x6#4) :
    decodeWord w = .ok (.ldImm (fieldX w) (fieldKk w)) := by
  have hne : fieldOp w ≠ 0x0#4 := by rw [h]; decide
  have hseReg : ¬(0x6#4 = 0x5#4 ∧ fieldN w = 0x0#4) := not_and_of_not_left _ (by decide)
  rw [decodeWord_of_op hne, h, if_neg (by decide), if_neg (by decide), if_neg (by decide), if_neg (by decide),
    if_neg hseReg, if_pos rfl]

/-- A word of top nibble 7 is an ADD imm: the tests for nibbles 1 to 6 fail before its own (R65). -/
theorem decodeWord_of_op_seven {w : Word} (h : fieldOp w = 0x7#4) :
    decodeWord w = .ok (.addImm (fieldX w) (fieldKk w)) := by
  have hne : fieldOp w ≠ 0x0#4 := by rw [h]; decide
  have hseReg : ¬(0x7#4 = 0x5#4 ∧ fieldN w = 0x0#4) := not_and_of_not_left _ (by decide)
  rw [decodeWord_of_op hne, h, if_neg (by decide), if_neg (by decide), if_neg (by decide), if_neg (by decide),
    if_neg hseReg, if_neg (by decide), if_pos rfl]

/-- The handler of LD imm writes the immediate to `V[x]` (R100). -/
@[simp] theorem exec_ldImm (x : RegIdx) (kk : Byte) (s : State) : exec (.ldImm x kk) s = .next (s.setReg x kk) := rfl

/-- The handler of ADD imm writes the sum of `V[x]` and the immediate to `V[x]` (R101). -/
@[simp] theorem exec_addImm (x : RegIdx) (kk : Byte) (s : State) :
    exec (.addImm x kk) s = .next (s.setReg x (aluAdd (s.reg x) kk)) := rfl

/-- The sum keeps the low 8 bits of the exact sum (R107). -/
theorem aluAdd_toNat (a b : Byte) : (aluAdd a b).toNat = (a.toNat + b.toNat) % 256 := BitVec.toNat_ofNat ..

/-- A write of one register leaves every other register, `pc`, call stack, memory and status alone. -/
theorem setReg_frame (s : State) (x : RegIdx) (v : Byte) :
    SameRegsBut x s (s.setReg x v) ∧ (s.setReg x v).pc = s.pc ∧ SameStack s (s.setReg x v) ∧ SameMem s (s.setReg x v) ∧
      (s.setReg x v).status = s.status :=
  ⟨fun _ hne => reg_setReg_ne s hne v, setReg_pc s x v, ⟨setReg_sp s x v, setReg_slot s x v⟩,
    fun a => by rw [setReg_mem], setReg_status s x v⟩

/-- Settles O29: the next state is the old one with the immediate written to `V[x]`. -/
theorem ldImmLoads : Obligations.LdImmLoads := by
  refine ⟨fun w => decodeWord_of_op_six, fun x kk s => ?handler⟩
  case handler => exact ⟨s.setReg x kk, exec_ldImm x kk s, reg_setReg_self s x kk, setReg_frame s x kk⟩

/-- Settles O30: the next state is the old one with the sum written to `V[x]`, and the sum is taken modulo 256. -/
theorem addImmAddsModulo256 : Obligations.AddImmAddsModulo256 := by
  refine ⟨fun w => decodeWord_of_op_seven, fun x kk s => ?handler⟩
  case handler =>
    have hsum : ((s.setReg x (aluAdd (s.reg x) kk)).reg x).toNat = ((s.reg x).toNat + kk.toNat) % 256 := by
      rw [reg_setReg_self, aluAdd_toNat]
    exact ⟨_, exec_addImm x kk s, hsum, setReg_frame s x _⟩

end Sys2Proof.Machine
end

section
/-! PROOFS. The register-register group: LD reg, OR, AND, XOR and ADD reg (spec/45_alu_reg.md R102 to R108). -/

namespace Sys2Proof.Machine

/-- The dispatcher in group 8: the tests for the other groups fail, and those on `n` alone are left (R65). -/
theorem decodeWord_of_op_eight {w : Word} (h : fieldOp w = 0x8#4) :
    decodeWord w =
      if fieldN w = 0x0#4 then .ok (.ldReg (fieldX w) (fieldY w))
      else if fieldN w = 0x1#4 then .ok (.or (fieldX w) (fieldY w))
      else if fieldN w = 0x2#4 then .ok (.and (fieldX w) (fieldY w))
      else if fieldN w = 0x3#4 then .ok (.xor (fieldX w) (fieldY w))
      else if fieldN w = 0x4#4 then .ok (.addReg (fieldX w) (fieldY w))
      else .error (.unimplementedOpcode w) := by
  have hne : fieldOp w ≠ 0x0#4 := by rw [h]; decide
  have hseReg : ¬(0x8#4 = 0x5#4 ∧ fieldN w = 0x0#4) := not_and_of_not_left _ (by decide)
  rw [decodeWord_of_op hne, h, if_neg (by decide), if_neg (by decide), if_neg (by decide), if_neg (by decide),
    if_neg hseReg, if_neg (by decide), if_neg (by decide)]
  simp only [true_and]

/-- The handler of LD reg writes the value of `V[y]` to `V[x]` (R102). -/
@[simp] theorem exec_ldReg (x y : RegIdx) (s : State) : exec (.ldReg x y) s = .next (s.setReg x (s.reg y)) := rfl

/-- The handler of OR writes the bitwise OR of the old values to `V[x]` (R103). -/
@[simp] theorem exec_or (x y : RegIdx) (s : State) : exec (.or x y) s = .next (s.setReg x (s.reg x ||| s.reg y)) := rfl

/-- The handler of AND writes the bitwise AND of the old values to `V[x]` (R104). -/
@[simp] theorem exec_and (x y : RegIdx) (s : State) : exec (.and x y) s = .next (s.setReg x (s.reg x &&& s.reg y)) := rfl

/-- The handler of XOR writes the bitwise exclusive OR of the old values to `V[x]` (R105). -/
@[simp] theorem exec_xor (x y : RegIdx) (s : State) : exec (.xor x y) s = .next (s.setReg x (s.reg x ^^^ s.reg y)) := rfl

/-- The handler of ADD reg writes the sum of the old values to `V[x]` (R106). -/
@[simp] theorem exec_addReg (x y : RegIdx) (s : State) :
    exec (.addReg x y) s = .next (s.setReg x (aluAdd (s.reg x) (s.reg y))) := rfl

/-- The engine's sum is the sum of bytes as bit vectors (R107). -/
theorem aluAdd_eq_add (a b : Byte) : aluAdd a b = a + b :=
  BitVec.eq_of_toNat_eq ((aluAdd_toNat a b).trans (BitVec.toNat_add a b).symm)

/-- A copied register keeps its value, also when it is copied to itself (R102, R108). -/
theorem reg_setReg_source (s : State) (x y : RegIdx) : (s.setReg x (s.reg y)).reg y = s.reg y := by
  rw [reg_setReg, ite_self]

/-- Settles O36: each handler writes a value made of the old `V[x]` and `V[y]`, and with `x = y` that value is the law of
the operation on equal operands. -/
theorem operandsAreReadBeforeTheWrite : Obligations.OperandsAreReadBeforeTheWrite := by
  intro x y s
  refine ⟨⟨_, exec_ldReg x y s, reg_setReg_self .., ?ldReg⟩, ⟨_, exec_or x y s, reg_setReg_self .., ?or⟩,
    ⟨_, exec_and x y s, reg_setReg_self .., ?and⟩, ⟨_, exec_xor x y s, reg_setReg_self .., ?xor⟩,
    ⟨_, exec_addReg x y s, ?sum, ?addReg⟩⟩
  case ldReg => rintro rfl; exact reg_setReg_self ..
  case or => rintro rfl; rw [reg_setReg_self, BitVec.or_self]
  case and => rintro rfl; rw [reg_setReg_self, BitVec.and_self]
  case xor => rintro rfl; rw [reg_setReg_self, BitVec.xor_self]
  case sum => rw [reg_setReg_self, aluAdd_eq_add]
  case addReg => rintro rfl; rw [reg_setReg_self, aluAdd_toNat, two_mul]

/-- Settles O31: the next state is the old one with the value of `V[y]` written to `V[x]`. -/
theorem ldRegCopies : Obligations.LdRegCopies := by
  refine ⟨fun w hop hn => ?pattern, fun x y s => ?handler⟩
  case pattern => rw [decodeWord_of_op_eight hop, if_pos hn]
  case handler =>
    exact ⟨_, exec_ldReg x y s, reg_setReg_self s x _, reg_setReg_source s x y, setReg_frame s x _⟩

/-- Settles O32: the next state is the old one with the OR of the two values written to `V[x]`. -/
theorem orIsBitwise : Obligations.OrIsBitwise := by
  refine ⟨fun w hop hn => ?pattern, fun x y s => ⟨_, exec_or x y s, fun b => ?bits, setReg_frame s x _⟩⟩
  case pattern => rw [decodeWord_of_op_eight hop, hn, if_neg (by decide), if_pos rfl]
  case bits => rw [reg_setReg_self, BitVec.getLsbD_or]

/-- Settles O33: the next state is the old one with the AND of the two values written to `V[x]`. -/
theorem andIsBitwise : Obligations.AndIsBitwise := by
  refine ⟨fun w hop hn => ?pattern, fun x y s => ⟨_, exec_and x y s, fun b => ?bits, setReg_frame s x _⟩⟩
  case pattern => rw [decodeWord_of_op_eight hop, hn, if_neg (by decide), if_neg (by decide), if_pos rfl]
  case bits => rw [reg_setReg_self, BitVec.getLsbD_and]

/-- Settles O34: the next state is the old one with the exclusive OR of the two values written to `V[x]`. -/
theorem xorIsBitwise : Obligations.XorIsBitwise := by
  refine ⟨fun w hop hn => ?pattern, fun x y s => ⟨_, exec_xor x y s, fun b => ?bits, setReg_frame s x _⟩⟩
  case pattern =>
    rw [decodeWord_of_op_eight hop, hn, if_neg (by decide), if_neg (by decide), if_neg (by decide), if_pos rfl]
  case bits => rw [reg_setReg_self, BitVec.getLsbD_xor]

/-- Settles O35: the next state is the old one with the sum written to `V[x]` alone, and the sum is taken modulo 256. -/
theorem addRegAddsModulo256 : Obligations.AddRegAddsModulo256 := by
  refine ⟨fun w hop hn => ?pattern, fun x y s => ⟨_, exec_addReg x y s, ?sum, setReg_frame s x _⟩⟩
  case pattern =>
    rw [decodeWord_of_op_eight hop, hn, if_neg (by decide), if_neg (by decide), if_neg (by decide),
      if_neg (by decide), if_pos rfl]
  case sum => rw [reg_setReg_self, aluAdd_toNat]

end Sys2Proof.Machine
end

section
/-! PROOFS. Decoding and encoding undo each other, word by word (spec/30_encoding.md R60 to R68). -/

namespace Sys2Proof.Machine

/-- A word of top nibble 2 is a CALL: the test for nibble 1 fails before its own (R65). -/
theorem decodeWord_of_op_two {w : Word} (h : fieldOp w = 0x2#4) : decodeWord w = .ok (.call (fieldAddr w)) := by
  have hne : fieldOp w ≠ 0x0#4 := by rw [h]; decide
  rw [decodeWord_of_op hne, h, if_neg (by decide), if_pos rfl]

/-- A word of top nibble 5 with `n = 0` is an SE reg: the tests for nibbles 1 to 4 fail before its own (R65). -/
theorem decodeWord_of_op_five {w : Word} (h : fieldOp w = 0x5#4) (hn : fieldN w = 0x0#4) :
    decodeWord w = .ok (.seReg (fieldX w) (fieldY w)) := by
  have hne : fieldOp w ≠ 0x0#4 := by rw [h]; decide
  rw [decodeWord_of_op hne, h, if_neg (by decide), if_neg (by decide), if_neg (by decide), if_neg (by decide),
    if_pos ⟨rfl, hn⟩]

/-- The dispatcher reads an instruction back from its own word: the fields of the word are the operands (R62 to R66). -/
theorem decodeWord_encode (i : Instr) : decodeWord (encode i) = .ok i := by
  cases i with
  | halt | cls | ret => decide
  | jmp a =>
    obtain ⟨hop, ha⟩ := fields_nnn 0x1#4 a
    exact (decodeWord_of_op_one hop).trans (by rw [ha])
  | call a =>
    obtain ⟨hop, ha⟩ := fields_nnn 0x2#4 a
    exact (decodeWord_of_op_two hop).trans (by rw [ha])
  | seImm x kk =>
    obtain ⟨hop, hx, hk⟩ := fields_xkk 0x3#4 x kk
    exact (decodeWord_of_op_three hop).trans (by rw [hx, hk])
  | sneImm x kk =>
    obtain ⟨hop, hx, hk⟩ := fields_xkk 0x4#4 x kk
    exact (decodeWord_of_op_four hop).trans (by rw [hx, hk])
  | seReg x y =>
    obtain ⟨hop, hx, hy, hn⟩ := fields_xyn 0x5#4 x y 0x0#4
    exact (decodeWord_of_op_five hop hn).trans (by rw [hx, hy])
  | ldImm x kk =>
    obtain ⟨hop, hx, hk⟩ := fields_xkk 0x6#4 x kk
    exact (decodeWord_of_op_six hop).trans (by rw [hx, hk])
  | addImm x kk =>
    obtain ⟨hop, hx, hk⟩ := fields_xkk 0x7#4 x kk
    exact (decodeWord_of_op_seven hop).trans (by rw [hx, hk])
  | ldReg x y =>
    obtain ⟨hop, hx, hy, hn⟩ := fields_xyn 0x8#4 x y 0x0#4
    exact (decodeWord_of_op_eight hop).trans (by simp [hx, hy, hn])
  | or x y =>
    obtain ⟨hop, hx, hy, hn⟩ := fields_xyn 0x8#4 x y 0x1#4
    exact (decodeWord_of_op_eight hop).trans (by simp [hx, hy, hn])
  | and x y =>
    obtain ⟨hop, hx, hy, hn⟩ := fields_xyn 0x8#4 x y 0x2#4
    exact (decodeWord_of_op_eight hop).trans (by simp [hx, hy, hn])
  | xor x y =>
    obtain ⟨hop, hx, hy, hn⟩ := fields_xyn 0x8#4 x y 0x3#4
    exact (decodeWord_of_op_eight hop).trans (by simp [hx, hy, hn])
  | addReg x y =>
    obtain ⟨hop, hx, hy, hn⟩ := fields_xyn 0x8#4 x y 0x4#4
    exact (decodeWord_of_op_eight hop).trans (by simp [hx, hy, hn])

/-- Settles O2: the bytes make the instruction's word again, and the dispatcher reads the instruction back from it. -/
theorem decodeEncode : Obligations.DecodeEncode := by
  intro i rest
  rw [encodeBytes, List.cons_append, List.cons_append, List.nil_append, decode_two, wordOfBytes_high_low,
    decodeWord_encode, Except.map]

/-- The layout of format NNN puts a word together from its own fields (R63). -/
theorem nnn_eq_of_op {w : Word} {o : Nibble} (h : fieldOp w = o) : (o ++ fieldAddr w : BitVec (4 + 12)) = w := by
  rw [← h, word_eq_nnn]

/-- The layout of format XKK puts a word together from its own fields (R63). -/
theorem xkk_eq_of_op {w : Word} {o : Nibble} (h : fieldOp w = o) :
    (o ++ fieldX w ++ fieldKk w : BitVec (4 + 4 + 8)) = w := by
  rw [← h, word_eq_xkk]

/-- The layout of format XYN puts a word together from its own fields (R63). -/
theorem xyn_eq_of_op {w : Word} {o n : Nibble} (h : fieldOp w = o ∧ fieldN w = n) :
    (o ++ fieldX w ++ fieldY w ++ n : BitVec (4 + 4 + 4 + 4)) = w := by
  obtain ⟨rfl, rfl⟩ := h
  exact word_eq_xyn w

/-- Settles O3: the test of the dispatcher that picked the instruction fixed every digit of the word that is no operand. -/
theorem encodeDecode : Obligations.EncodeDecode := by
  intro w i h
  simp only [decodeWord, test_eq_ok, reduceCtorEq, and_false, or_false] at h
  obtain ⟨rfl, rfl⟩ | ⟨-, h⟩ := h
  case inl => rfl
  obtain ⟨rfl, rfl⟩ | ⟨-, h⟩ := h
  case inl => rfl
  obtain ⟨rfl, rfl⟩ | ⟨-, h⟩ := h
  case inl => rfl
  obtain ⟨h, rfl⟩ | ⟨-, ⟨h, rfl⟩ | ⟨-, h⟩⟩ := h
  case inl | inr.inl => exact nnn_eq_of_op h
  obtain ⟨h, rfl⟩ | ⟨-, ⟨h, rfl⟩ | ⟨-, h⟩⟩ := h
  case inl | inr.inl => exact xkk_eq_of_op h
  obtain ⟨h, rfl⟩ | ⟨-, h⟩ := h
  case inl => exact xyn_eq_of_op h
  obtain ⟨h, rfl⟩ | ⟨-, ⟨h, rfl⟩ | ⟨-, h⟩⟩ := h
  case inl | inr.inl => exact xkk_eq_of_op h
  obtain ⟨h, rfl⟩ | ⟨-, ⟨h, rfl⟩ | ⟨-, ⟨h, rfl⟩ | ⟨-, ⟨h, rfl⟩ | ⟨-, ⟨h, rfl⟩⟩⟩⟩⟩ := h
  all_goals exact xyn_eq_of_op h

/-- The dispatcher gives an instruction exactly at the instruction's own word (R66, R68). -/
theorem decodeWord_eq_ok {w : Word} {i : Instr} : decodeWord w = .ok i ↔ encode i = w :=
  ⟨encodeDecode w i, fun h => h ▸ decodeWord_encode i⟩

end Sys2Proof.Machine
end

section
/-! PROOFS. The legal words, the opcode map and the field masks (spec/30_encoding.md R62, R66, R67). -/

namespace Sys2Proof.Machine

/-- The three words of group 0 lie in group 0 (R66). -/
theorem fieldOp_of_exact {w : Word} (h : w = 0x0000#16 ∨ w = 0x00E0#16 ∨ w = 0x00EE#16) : fieldOp w = 0x0#4 := by
  obtain rfl | rfl | rfl := h <;> decide

/-- In group 0 every word but three is rejected (R65, D8). -/
theorem decodeWord_error_of_op_zero {w : Word} (h : fieldOp w = 0x0#4) :
    decodeWord w = .error (.unimplementedOpcode w) ↔ w ≠ 0x0000#16 ∧ w ≠ 0x00E0#16 ∧ w ≠ 0x00EE#16 := by
  simp [decodeWord, test_eq_error, h]

/-- Outside group 0 a word is rejected by its top nibble and `n` alone (R65, D8). -/
theorem decodeWord_error_of_op_ne_zero {w : Word} (h : fieldOp w ≠ 0x0#4) :
    decodeWord w = .error (.unimplementedOpcode w) ↔
      (fieldOp w = 0x5#4 ∧ fieldN w ≠ 0x0#4) ∨ (fieldOp w = 0x8#4 ∧ 5 ≤ (fieldN w).toNat) ∨ 9 ≤ (fieldOp w).toNat := by
  simp only [decodeWord_of_op h, test_eq_error, and_true]
  generalize fieldOp w = o at h ⊢
  generalize fieldN w = n
  revert o n
  decide

/-- Settles O4: in group 0 the exact words are excluded, and outside it the nibbles decide. -/
theorem illegalWordsExactly : Obligations.IllegalWordsExactly := by
  intro w
  by_cases h : fieldOp w = 0x0#4
  · rw [decodeWord_error_of_op_zero h, h]
    simp
  · rw [decodeWord_error_of_op_ne_zero h]
    simp [h]

/-- The mask of formats NNN and XKK compares the top nibble (R66). -/
theorem mask_op_eq_iff {w : Word} {o : Nibble} : w &&& 0xF000#16 = (o ++ 0x000#12 : BitVec (4 + 12)) ↔ fieldOp w = o := by
  have hmask : w &&& 0xF000#16 = (fieldOp w ++ 0x000#12 : BitVec (4 + 12)) := by
    rw [← mask_op (fieldOp w) (fieldAddr w), word_eq_nnn]
  rw [hmask]
  exact ⟨fun h => by rw [← extract_append_high (fieldOp w) 0x000#12, h, extract_append_high], fun h => by rw [h]⟩

/-- The mask of format XYN compares the top nibble and `n` (R66). -/
theorem mask_op_n_eq_iff {w : Word} {o n : Nibble} :
    w &&& 0xF00F#16 = (o ++ 0x0#4 ++ 0x0#4 ++ n : BitVec (4 + 4 + 4 + 4)) ↔ fieldOp w = o ∧ fieldN w = n := by
  have hmask : w &&& 0xF00F#16 = (fieldOp w ++ 0x0#4 ++ 0x0#4 ++ fieldN w : BitVec (4 + 4 + 4 + 4)) := by
    rw [← mask_op_n (fieldOp w) (fieldX w) (fieldY w) (fieldN w), word_eq_xyn]
  rw [hmask]
  refine ⟨fun h => ?_, fun ⟨ho, hn⟩ => by rw [ho, hn]⟩
  obtain ⟨hop, -, -, hn⟩ := fields_xyn (fieldOp w) 0x0#4 0x0#4 (fieldN w)
  obtain ⟨hop', -, -, hn'⟩ := fields_xyn o 0x0#4 0x0#4 n
  exact ⟨by rw [← hop, h, hop'], by rw [← hn, h, hn']⟩

/-- A word matches a row when its bits under the mask are the pattern (R66). -/
theorem matches_iff {r : OpRow} {w : Word} : r.matches w = true ↔ w &&& r.mask = r.pattern := beq_iff_eq

/-- A row of the full mask matches one word (R66). -/
theorem eq_of_full_mask {w p : Word} (h : w &&& 0xFFFF#16 = p) : w = p := by
  rwa [show 0xFFFF#16 = BitVec.allOnes 16 by decide, BitVec.and_allOnes] at h

/-- Rows of the opcode map are told apart by their mnemonics (R66). -/
theorem row_eq_of_mnemonic : ∀ r ∈ opcodeTable, ∀ r' ∈ opcodeTable, r.mnemonic = r'.mnemonic → r = r' := by
  decide

/-- A word that matches a row decodes to an instruction of the row: its mask fixes what the dispatcher tests (R65, R66). -/
theorem decodes_of_matches {w : Word} {r : OpRow} (hr : r ∈ opcodeTable) (h : r.matches w = true) :
    ∃ i, decodeWord w = .ok i ∧ i.mnemonic = r.mnemonic := by
  rw [matches_iff] at h
  simp only [opcodeTable, List.cons_append, List.nil_append, List.mem_cons, List.not_mem_nil, or_false] at hr
  obtain rfl | rfl | rfl | rfl | rfl | rfl | rfl | rfl | rfl | rfl | rfl | rfl | rfl | rfl | rfl := hr
  · exact ⟨.halt, by rw [eq_of_full_mask h]; decide, rfl⟩
  · exact ⟨.cls, by rw [eq_of_full_mask h]; decide, rfl⟩
  · exact ⟨.ret, by rw [eq_of_full_mask h]; decide, rfl⟩
  · exact ⟨_, decodeWord_of_op_one (mask_op_eq_iff.1 h), rfl⟩
  · exact ⟨_, decodeWord_of_op_two (mask_op_eq_iff.1 h), rfl⟩
  · exact ⟨_, decodeWord_of_op_three (mask_op_eq_iff.1 h), rfl⟩
  · exact ⟨_, decodeWord_of_op_four (mask_op_eq_iff.1 h), rfl⟩
  · obtain ⟨hop, hn⟩ := (mask_op_n_eq_iff (o := 0x5#4) (n := 0x0#4)).1 h
    exact ⟨_, decodeWord_of_op_five hop hn, rfl⟩
  · exact ⟨_, decodeWord_of_op_six (mask_op_eq_iff.1 h), rfl⟩
  · exact ⟨_, decodeWord_of_op_seven (mask_op_eq_iff.1 h), rfl⟩
  · obtain ⟨hop, hn⟩ := (mask_op_n_eq_iff (o := 0x8#4) (n := 0x0#4)).1 h
    exact ⟨.ldReg (fieldX w) (fieldY w), by simp [decodeWord_of_op_eight hop, hn], rfl⟩
  · obtain ⟨hop, hn⟩ := (mask_op_n_eq_iff (o := 0x8#4) (n := 0x1#4)).1 h
    exact ⟨.or (fieldX w) (fieldY w), by simp [decodeWord_of_op_eight hop, hn], rfl⟩
  · obtain ⟨hop, hn⟩ := (mask_op_n_eq_iff (o := 0x8#4) (n := 0x2#4)).1 h
    exact ⟨.and (fieldX w) (fieldY w), by simp [decodeWord_of_op_eight hop, hn], rfl⟩
  · obtain ⟨hop, hn⟩ := (mask_op_n_eq_iff (o := 0x8#4) (n := 0x3#4)).1 h
    exact ⟨.xor (fieldX w) (fieldY w), by simp [decodeWord_of_op_eight hop, hn], rfl⟩
  · obtain ⟨hop, hn⟩ := (mask_op_n_eq_iff (o := 0x8#4) (n := 0x4#4)).1 h
    exact ⟨.addReg (fieldX w) (fieldY w), by simp [decodeWord_of_op_eight hop, hn], rfl⟩

/-- The word of every instruction matches the row of its mnemonic (R66). -/
theorem exists_row_of_encode (i : Instr) : Laws.RowOfWord.Statement i := by
  cases i with
  | halt => exact Laws.RowOfWord.halt
  | cls => exact Laws.RowOfWord.cls
  | ret => exact Laws.RowOfWord.ret
  | jmp a => exact Laws.RowOfWord.jmp a
  | call a => exact Laws.RowOfWord.call a
  | seImm x kk => exact Laws.RowOfWord.seImm x kk
  | sneImm x kk => exact Laws.RowOfWord.sneImm x kk
  | seReg x y => exact Laws.RowOfWord.seReg x y
  | ldImm x kk => exact Laws.RowOfWord.ldImm x kk
  | addImm x kk => exact Laws.RowOfWord.addImm x kk
  | ldReg x y => exact Laws.RowOfWord.ldReg x y
  | or x y => exact Laws.RowOfWord.or x y
  | and x y => exact Laws.RowOfWord.and x y
  | xor x y => exact Laws.RowOfWord.xor x y
  | addReg x y => exact Laws.RowOfWord.addReg x y

/-- A word that decodes matches the row of its instruction (R66). -/
theorem matches_of_decodes {w : Word} {i : Instr} (h : decodeWord w = .ok i) :
    ∃ r ∈ opcodeTable, r.matches w = true ∧ r.mnemonic = i.mnemonic := by
  obtain ⟨r, hr, hm, hw⟩ := exists_row_of_encode i
  rw [decodeWord_eq_ok.1 h] at hw
  exact ⟨r, hr, matches_iff.2 hw, hm⟩

/-- Settles O5: a matching row names the decoded instruction, and a mnemonic has one row. -/
theorem dispatcherAgreesWithOpcodeMap : Obligations.DispatcherAgreesWithOpcodeMap := by
  refine ⟨fun w r hr => ⟨decodes_of_matches hr, ?decoded⟩, fun w i => matches_of_decodes, ?disjoint⟩
  case decoded =>
    rintro ⟨i, hi, hm⟩
    obtain ⟨r', hr', hw, hm'⟩ := matches_of_decodes hi
    rwa [row_eq_of_mnemonic r hr r' hr' (hm.symm.trans hm'.symm)]
  case disjoint =>
    intro w r r' hr hr' hw hw'
    obtain ⟨i, hi, hm⟩ := decodes_of_matches hr hw
    obtain ⟨j, hj, hm'⟩ := decodes_of_matches hr' hw'
    obtain rfl : i = j := Except.ok.inj (hi.symm.trans hj)
    exact row_eq_of_mnemonic r hr r' hr' (hm.symm.trans hm')

/-- A field as a number is the word under the field's mask, shifted down (R62). -/
theorem extract_toNat_eq_mask (w : Word) {lo len : Nat} (h : lo + len ≤ 16) :
    (w.extractLsb' lo len).toNat = ((w &&& (BitVec.allOnes len).setWidth 16 <<< lo) >>> lo).toNat := by
  have hext : (w.extractLsb' lo len).setWidth 16 = (w &&& (BitVec.allOnes len).setWidth 16 <<< lo) >>> lo := by
    apply BitVec.eq_of_getLsbD_eq
    intro i hi
    by_cases hlen : i < len
    · simp [hi, hlen, show lo + i < 16 by omega]
    · simp [hlen]
  rw [← hext, BitVec.toNat_setWidth_of_le (by omega)]

/-- A field of the lowest bits as a number is the word under the field's mask (R62). -/
theorem extract_low_toNat_eq_mask (w : Word) {len : Nat} (h : len ≤ 16) :
    (w.extractLsb' 0 len).toNat = (w &&& (BitVec.allOnes len).setWidth 16).toNat := by
  rw [extract_toNat_eq_mask w (by omega), BitVec.shiftLeft_zero, BitVec.ushiftRight_zero]

/-- A word as a number: its first byte is the high one (R61). -/
theorem wordOfBytes_toNat (hi lo : Byte) : (wordOfBytes hi lo).toNat = hi.toNat * 256 + lo.toNat := by
  rw [wordOfBytes, BitVec.toNat_append, ← Nat.shiftLeft_add_eq_or_of_lt lo.isLt, Nat.shiftLeft_eq]

/-- Settles O6: every field is a slice of the word, and a word is its two bytes. -/
theorem fieldsAreMasks : Obligations.FieldsAreMasks := by
  intro w
  refine ⟨?x, ?y, ?kk, ?n, ?addr, ?op, ?bytes⟩
  case x => exact extract_toNat_eq_mask w (by decide)
  case y => exact extract_toNat_eq_mask w (by decide)
  case kk => exact extract_low_toNat_eq_mask w (by decide)
  case n => exact extract_low_toNat_eq_mask w (by decide)
  case addr => exact extract_low_toNat_eq_mask w (by decide)
  case op => exact extract_toNat_eq_mask w (by decide)
  case bytes => rw [← wordOfBytes_toNat, wordOfBytes_high_low]

end Sys2Proof.Machine
end

section
/-! PROOFS. The written forms: the lines that are well formed are the written forms of the instructions
(spec/30_encoding.md R70). -/

namespace Sys2Proof.Machine

/-- What a well-formed line is: a listed shape with every operand in its range (R70). -/
theorem wellFormed_iff {l : AsmLine} :
    l.wellFormed = true ↔ l.formOk = true ∧ ∀ a ∈ l.args, a.inRange l.name = true := by
  rw [AsmLine.wellFormed, Bool.and_eq_true, List.all_eq_true]

/-- A register operand is in range below 16 (R70). -/
@[simp] theorem inRange_reg {m : AsmName} {n : Nat} : (AsmArg.reg n).inRange m = true ↔ n < 16 := decide_eq_true_iff

/-- A number is in range up to the mnemonic's largest (R70). -/
@[simp] theorem inRange_num {m : AsmName} {n : Nat} : (AsmArg.num n).inRange m = true ↔ n ≤ m.maxNum := decide_eq_true_iff

/-- The written form of an instruction is well formed: every operand has the width of its field (R70). -/
theorem toAsm_wellFormed (i : Instr) : i.toAsm.wellFormed = true := by
  rw [wellFormed_iff]
  cases i with
  | halt | cls | ret => simp [Instr.toAsm, AsmLine.formOk]
  | jmp a | call a =>
    have ha : a.toNat ≤ 0xFFF := by omega
    simp [Instr.toAsm, AsmLine.formOk, AsmName.maxNum, ha]
  | seImm x kk | sneImm x kk | ldImm x kk | addImm x kk =>
    have hx : x.toNat < 16 := x.isLt
    have hk : kk.toNat ≤ 0xFF := by omega
    simp [Instr.toAsm, AsmLine.formOk, AsmName.maxNum, hx, hk]
  | seReg x y | ldReg x y | or x y | and x y | xor x y | addReg x y =>
    have hx : x.toNat < 16 := x.isLt
    have hy : y.toNat < 16 := y.isLt
    simp [Instr.toAsm, AsmLine.formOk, hx, hy]

/-- The written form of an instruction stands for the instruction (R70). -/
theorem toInstr_toAsm (i : Instr) : i.toAsm.toInstr = some i := by
  unfold AsmLine.toInstr
  rw [if_pos (toAsm_wellFormed i)]
  cases i <;> simp [Instr.toAsm]

/-- An address in range is written from the 12-bit address of its value (R70). -/
theorem exists_addr_of_inRange {m : AsmName} {n : Nat} (hargs : ∀ a ∈ [AsmArg.num n], a.inRange m = true)
    (hm : m.maxNum = 0xFFF) : ∃ addr : Addr, [AsmArg.num addr.toNat] = [.num n] := by
  have hn : n ≤ 0xFFF := by simpa [hm] using hargs
  exact ⟨BitVec.ofNatLT n (by omega), rfl⟩

/-- A register and an immediate in range are written from the fields of their values (R70). -/
theorem exists_reg_imm_of_inRange {m : AsmName} {n k : Nat} (hargs : ∀ a ∈ [AsmArg.reg n, .num k], a.inRange m = true)
    (hm : m.maxNum = 0xFF) : ∃ (x : RegIdx) (kk : Byte), [AsmArg.reg x.toNat, .num kk.toNat] = [.reg n, .num k] := by
  obtain ⟨hn, hk⟩ : n < 16 ∧ k ≤ 0xFF := by simpa [hm] using hargs
  exact ⟨BitVec.ofNatLT n (by omega), BitVec.ofNatLT k (by omega), rfl⟩

/-- Two registers in range are written from the indices of their values (R70). -/
theorem exists_regs_of_inRange {m : AsmName} {n k : Nat} (hargs : ∀ a ∈ [AsmArg.reg n, .reg k], a.inRange m = true) :
    ∃ x y : RegIdx, [AsmArg.reg x.toNat, .reg y.toNat] = [.reg n, .reg k] := by
  obtain ⟨hn, hk⟩ : n < 16 ∧ k < 16 := by simpa using hargs
  exact ⟨BitVec.ofNatLT n (by omega), BitVec.ofNatLT k (by omega), rfl⟩

/-- A well-formed line is the written form of an instruction: its shape names the instruction and its operands fit their
fields (R70). -/
theorem exists_toAsm_of_wellFormed {l : AsmLine} (h : l.wellFormed = true) : ∃ i : Instr, i.toAsm = l := by
  obtain ⟨hform, hargs⟩ := wellFormed_iff.1 h
  unfold AsmLine.formOk at hform
  split at hform
  · exact ⟨.halt, rfl⟩
  · exact ⟨.cls, rfl⟩
  · exact ⟨.ret, rfl⟩
  · obtain ⟨addr, e⟩ := exists_addr_of_inRange hargs rfl
    exact ⟨.jmp addr, congrArg _ e⟩
  · obtain ⟨addr, e⟩ := exists_addr_of_inRange hargs rfl
    exact ⟨.call addr, congrArg _ e⟩
  · obtain ⟨x, kk, e⟩ := exists_reg_imm_of_inRange hargs rfl
    exact ⟨.seImm x kk, congrArg _ e⟩
  · obtain ⟨x, kk, e⟩ := exists_reg_imm_of_inRange hargs rfl
    exact ⟨.sneImm x kk, congrArg _ e⟩
  · obtain ⟨x, kk, e⟩ := exists_reg_imm_of_inRange hargs rfl
    exact ⟨.ldImm x kk, congrArg _ e⟩
  · obtain ⟨x, kk, e⟩ := exists_reg_imm_of_inRange hargs rfl
    exact ⟨.addImm x kk, congrArg _ e⟩
  · obtain ⟨x, y, e⟩ := exists_regs_of_inRange hargs
    exact ⟨.seReg x y, congrArg _ e⟩
  · obtain ⟨x, y, e⟩ := exists_regs_of_inRange hargs
    exact ⟨.ldReg x y, congrArg _ e⟩
  · obtain ⟨x, y, e⟩ := exists_regs_of_inRange hargs
    exact ⟨.addReg x y, congrArg _ e⟩
  · obtain ⟨x, y, e⟩ := exists_regs_of_inRange hargs
    exact ⟨.or x y, congrArg _ e⟩
  · obtain ⟨x, y, e⟩ := exists_regs_of_inRange hargs
    exact ⟨.and x y, congrArg _ e⟩
  · obtain ⟨x, y, e⟩ := exists_regs_of_inRange hargs
    exact ⟨.xor x y, congrArg _ e⟩
  · cases hform

/-- A line that is not well formed stands for nothing: an assembly error (R70). -/
theorem wellFormed_of_toInstr {l : AsmLine} {i : Instr} (h : l.toInstr = some i) : l.wellFormed = true := by
  by_contra hw
  unfold AsmLine.toInstr at h
  rw [if_neg hw] at h
  cases h

/-- Settles O7: a well-formed line is the written form of an instruction, and a written form stands for its instruction
alone. -/
theorem assemblyAgreesWithWellFormed : Obligations.AssemblyAgreesWithWellFormed := by
  refine ⟨fun l => ⟨fun hw => ?stands, fun ⟨i, hi⟩ => wellFormed_of_toInstr hi⟩, fun l i hi => ?written,
    fun i => ⟨toAsm_wellFormed i, toInstr_toAsm i⟩⟩
  case stands =>
    obtain ⟨i, rfl⟩ := exists_toAsm_of_wellFormed hw
    exact ⟨i, toInstr_toAsm i⟩
  case written =>
    obtain ⟨j, rfl⟩ := exists_toAsm_of_wellFormed (wellFormed_of_toInstr hi)
    rw [toInstr_toAsm, Option.some.injEq] at hi
    rw [hi]

end Sys2Proof.Machine
end

section
/-! PROOFS. What each handler with a case of its own answers, and what every handler keeps (spec/42_control_transfer.md R92,
R94; spec/10_state.md R22, R23). -/

namespace Sys2Proof.Machine

/-- A write of the status leaves registers, call stack and memory alone. -/
theorem setStatus_frame (s : State) (st : Status) :
    SameRegs s (s.setStatus st) ∧ SameStack s (s.setStatus st) ∧ SameMem s (s.setStatus st) :=
  ⟨setStatus_reg s st, ⟨setStatus_sp s st, setStatus_slot s st⟩, fun a => by rw [setStatus_mem]⟩

/-- Taking a fault leaves registers, call stack and memory alone (R115). -/
theorem raise_frame (s : State) (f : Fault) : SameRegs s (s.raise f) ∧ SameStack s (s.raise f) ∧ SameMem s (s.raise f) :=
  setStatus_frame s _

/-- A stack pointer is zero when it counts no address (R31). -/
theorem sp_eq_zero_iff {p : StackPtr} : p = 0#5 ↔ p.toNat = 0 := BitVec.toNat_inj.symm

/-- A stack pointer is 16 when it counts 16 addresses (R31). -/
theorem sp_eq_sixteen_iff {p : StackPtr} : p = 16#5 ↔ p.toNat = 16 := BitVec.toNat_inj.symm

/-- The handler of HALT writes the status (R90). -/
@[simp] theorem exec_halt (s : State) : exec .halt s = .next (s.setStatus .halted) := rfl

/-- The handler of RET with an empty stack (R112). -/
theorem exec_ret_empty {s : State} (h : s.sp.toNat = 0) : exec .ret s = .next (s.raise .stackUnderflow) :=
  if_pos (sp_eq_zero_iff.2 h)

/-- The handler of RET with 1 to 16 addresses held (R92). -/
theorem exec_ret_pop {s : State} (h : 0 < s.sp.toNat) (h' : s.sp.toNat ≤ 16) :
    exec .ret s = .next ((s.setSp (s.sp - 1#5)).setPc (s.slot (slotIdx (s.sp - 1#5)))) := by
  rw [exec, execRet, if_neg (by rw [sp_eq_zero_iff]; omega), pop_eq_some.2 ⟨h, h', rfl, rfl⟩]

/-- The handler of CALL with a full stack (R111). -/
theorem exec_call_full {s : State} (addr : Addr) (h : s.sp.toNat = 16) :
    exec (.call addr) s = .next (s.raise .stackOverflow) :=
  if_pos (sp_eq_sixteen_iff.2 h)

/-- The handler of CALL with a free slot (R94). -/
theorem exec_call_push {s : State} (addr : Addr) (h : s.sp.toNat < 16) :
    exec (.call addr) s =
      .next (((s.setSlot (slotIdx s.sp) s.pc).setSp (s.sp + 1#5)).setPc (targetAddr addr)) := by
  rw [exec, execCall, if_neg (by rw [sp_eq_sixteen_iff]; omega), push_eq_some.2 ⟨h, rfl⟩]

/-- The handler of SE reg: a skip on equality of the two registers' values (R98). -/
@[simp] theorem exec_seReg (x y : RegIdx) (s : State) :
    exec (.seReg x y) s = .next (s.skipIf (decide (s.reg x = s.reg y))) := by
  rw [← testEq_eq_decide]; rfl

/-- The two ways of RET to a next state (R92). -/
theorem exec_ret_cases {s t : State} (h : exec .ret s = .next t) :
    (s.sp.toNat = 0 ∧ t = s.raise .stackUnderflow) ∨
    (0 < s.sp.toNat ∧ s.sp.toNat ≤ 16 ∧ t = (s.setSp (s.sp - 1#5)).setPc (s.slot (slotIdx (s.sp - 1#5)))) := by
  simpa [destReg, sp_eq_zero_iff] using exec_next_cases h

/-- The two ways of CALL to a next state (R94). -/
theorem exec_call_cases {addr : Addr} {s t : State} (h : exec (.call addr) s = .next t) :
    (s.sp.toNat = 16 ∧ t = s.raise .stackOverflow) ∨
    (s.sp.toNat < 16 ∧ t = ((s.setSlot (slotIdx s.sp) s.pc).setSp (s.sp + 1#5)).setPc (targetAddr addr)) := by
  simpa [destReg, sp_eq_sixteen_iff] using exec_next_cases h

/-- What a handler writes, by item: the status; `pc`, by a skip or a jump; its destination register; or, RET and CALL, the
call stack and `pc` (R23, R30). -/
theorem exec_writes {i : Instr} {s t : State} (h : exec i s = .next t) :
    (∃ st, t = s.setStatus st) ∨
    (∃ p, (p = s.pc + 2#16 ∨ ∃ addr, p = targetAddr addr) ∧ t = s.setPc p) ∨
    (∃ x v, destReg i = some x ∧ t = s.setReg x v) ∨
    (i = .ret ∧ 0 < s.sp.toNat ∧ s.sp.toNat ≤ 16 ∧
      t = (s.setSp (s.sp - 1#5)).setPc (s.slot (slotIdx (s.sp - 1#5)))) ∨
    (∃ addr, i = .call addr ∧ s.sp.toNat < 16 ∧
      t = ((s.setSlot (slotIdx s.sp) s.pc).setSp (s.sp + 1#5)).setPc (targetAddr addr)) := by
  obtain ⟨-, rfl⟩ | ⟨-, rfl⟩ | ⟨-, -, rfl⟩ | hret | ⟨a, -, -, rfl⟩ | hcall | ⟨a, -, rfl⟩ | ⟨-, c, rfl⟩ | hreg :=
    exec_next_cases h
  · exact .inl ⟨.halted, rfl⟩
  · exact .inl ⟨t.status, rfl⟩
  · exact .inl ⟨.faulted .stackUnderflow, rfl⟩
  · exact .inr (.inr (.inr (.inl hret)))
  · exact .inl ⟨.faulted .stackOverflow, rfl⟩
  · exact .inr (.inr (.inr (.inr hcall)))
  · exact .inr (.inl ⟨_, .inr ⟨a, rfl⟩, rfl⟩)
  · cases c with
    | false => exact .inl ⟨s.status, rfl⟩
    | true => exact .inr (.inl ⟨_, .inl rfl, rfl⟩)
  · exact .inr (.inr (.inl hreg))

/-- No handler writes memory (R41). -/
theorem exec_mem {i : Instr} {s t : State} (h : exec i s = .next t) : t.mem = s.mem := by
  obtain ⟨st, rfl⟩ | ⟨p, -, rfl⟩ | ⟨x, v, -, rfl⟩ | ⟨-, -, -, rfl⟩ | ⟨addr, -, -, rfl⟩ := exec_writes h <;> rfl

/-- A handler writes no register but its destination (R23). -/
theorem exec_reg {i : Instr} {s t : State} (h : exec i s = .next t) {j : RegIdx} (hj : destReg i ≠ some j) :
    t.reg j = s.reg j := by
  obtain ⟨st, rfl⟩ | ⟨p, -, rfl⟩ | ⟨x, v, hx, rfl⟩ | ⟨-, -, -, rfl⟩ | ⟨addr, -, -, rfl⟩ := exec_writes h
  · rfl
  · rfl
  · exact reg_setReg_ne s (fun e => hj (by rw [hx, e])) v
  · rfl
  · rfl

/-- No handler but CALL's writes a slot (R30; RET: D5). -/
theorem exec_slot {i : Instr} {s t : State} (h : exec i s = .next t) (hi : ∀ addr, i ≠ .call addr) (k : SlotIdx) :
    t.slot k = s.slot k := by
  obtain ⟨st, rfl⟩ | ⟨p, -, rfl⟩ | ⟨x, v, -, rfl⟩ | ⟨-, -, -, rfl⟩ | ⟨addr, rfl, -, -⟩ := exec_writes h
  · rfl
  · rfl
  · rfl
  · rfl
  · exact absurd rfl (hi addr)

/-- No handler but those of CALL and RET writes `sp` (R31). -/
theorem exec_sp {i : Instr} {s t : State} (h : exec i s = .next t) (hr : i ≠ .ret) (hc : ∀ addr, i ≠ .call addr) :
    t.sp = s.sp := by
  obtain ⟨st, rfl⟩ | ⟨p, -, rfl⟩ | ⟨x, v, -, rfl⟩ | ⟨rfl, -, -, -⟩ | ⟨addr, rfl, -, -⟩ := exec_writes h
  · rfl
  · rfl
  · rfl
  · exact absurd rfl hr
  · exact absurd rfl (hc addr)

/-- The slot a CALL writes is the one of index `sp` (R94). -/
theorem ne_slotIdx {p : StackPtr} (h : p.toNat < 16) {k : SlotIdx} (hk : k.toNat ≠ p.toNat) : k ≠ slotIdx p :=
  fun e => hk (by rw [e, slotIdx_toNat h])

/-- A handler keeps the slots below `sp` (R30, R31). -/
theorem exec_live_slot {i : Instr} {s t : State} (h : exec i s = .next t) {k : SlotIdx} (hk : k.toNat < s.sp.toNat) :
    t.slot k = s.slot k := by
  by_cases hi : ∀ addr, i ≠ .call addr
  · exact exec_slot h hi k
  · push Not at hi
    obtain ⟨addr, rfl⟩ := hi
    obtain ⟨-, rfl⟩ | ⟨hsp, rfl⟩ := exec_call_cases h
    · rfl
    · exact slot_setSlot_ne s (ne_slotIdx hsp (by omega)) s.pc

/-- A handler keeps `sp` at most 16 (R31). -/
theorem exec_sp_le {i : Instr} {s t : State} (h : exec i s = .next t) (hsp : s.sp.toNat ≤ 16) : t.sp.toNat ≤ 16 := by
  obtain ⟨st, rfl⟩ | ⟨p, -, rfl⟩ | ⟨x, v, -, rfl⟩ | ⟨-, hpos, -, rfl⟩ | ⟨addr, -, hlt, rfl⟩ := exec_writes h
  · exact hsp
  · exact hsp
  · exact hsp
  · rw [setPc_sp, setSp_sp, sp_sub_one hpos]
    omega
  · rw [setPc_sp, setSp_sp, sp_add_one hlt]
    omega

/-- A slot holds at most a bound after a write when its new value and its old one do. -/
theorem slot_setSlot_le {s : State} {n : Nat} {v : Word} (hs : ∀ k, (s.slot k).toNat ≤ n) (hv : v.toNat ≤ n)
    (j k : SlotIdx) : ((s.setSlot j v).slot k).toNat ≤ n := by
  rw [slot_setSlot]
  split
  · exact hv
  · exact hs k

/-- A handler run with `pc` at most 4096 keeps the bounds of `pc` and of the slots (R28). -/
theorem exec_pcBounded {i : Instr} {s t : State} (h : exec i s = .next t) (hpc : s.pc.toNat ≤ 4096)
    (hs : ∀ k, (s.slot k).toNat ≤ 4096) : t.PcBounded := by
  obtain ⟨st, rfl⟩ | ⟨p, rfl | ⟨addr, rfl⟩, rfl⟩ | ⟨x, v, -, rfl⟩ | ⟨-, -, -, rfl⟩ | ⟨addr, -, -, rfl⟩ := exec_writes h
  · exact ⟨hpc.trans (by decide), hs⟩
  · refine ⟨?_, hs⟩
    rw [setPc_pc, add_two_toNat hpc]
    omega
  · refine ⟨?_, hs⟩
    rw [setPc_pc, targetAddr_toNat]
    omega
  · exact ⟨hpc.trans (by decide), hs⟩
  · exact ⟨(hs _).trans (by decide), hs⟩
  · refine ⟨?_, slot_setSlot_le hs hpc _⟩
    rw [setPc_pc, targetAddr_toNat]
    omega

end Sys2Proof.Machine
end

section
/-! PROOFS. The invariants every step keeps, and the frame of a step (spec/10_state.md R28, R30, R31; spec/20_memory.md
R41). -/

namespace Sys2Proof.Machine

/-- Settles O39: no way to a next state writes memory. -/
theorem stepNeverWritesMemory : Obligations.StepNeverWritesMemory := by
  intro s t h
  obtain ⟨-, rfl⟩ | ⟨-, -, -, rfl⟩ | ⟨w, e, -, -, -, -, rfl⟩ | ⟨w, i, -, -, -, -, hexec⟩ := step_next_cases h
  · rfl
  · rfl
  · rfl
  · exact (exec_mem hexec).trans (advancePc_mem s)

/-- Settles O41: memory is never written, and of all that a step does only CALL and RET move `sp`, within its bounds. -/
theorem stepKeepsInv : Obligations.StepKeepsInv := by
  intro s t hinv h
  obtain ⟨hwf, hsp⟩ := hinv
  refine ⟨by rwa [stepNeverWritesMemory s t h], ?_⟩
  obtain ⟨-, rfl⟩ | ⟨-, -, -, rfl⟩ | ⟨w, e, -, -, -, -, rfl⟩ | ⟨w, i, -, -, -, -, hexec⟩ := step_next_cases h
  · exact hsp
  · exact hsp
  · exact hsp
  · exact exec_sp_le hexec hsp

/-- Settles O42: where a word was fetched the advanced `pc` is at most 4096, and a handler adds at most 2 to it. -/
theorem stepKeepsPcBounded : Obligations.StepKeepsPcBounded := by
  intro s t hb h
  obtain ⟨hpc, hslots⟩ := hb
  have hadvance : ∀ w, s.fetch = some w → s.advancePc.pc.toNat ≤ 4096 := fun w hw => by
    have := pc_le_of_fetch hw
    rw [advancePc_pc_toNat hw]
    omega
  obtain ⟨-, rfl⟩ | ⟨-, -, -, rfl⟩ | ⟨w, e, -, -, hw, -, rfl⟩ | ⟨w, i, -, -, hw, -, hexec⟩ := step_next_cases h
  · exact ⟨hpc, hslots⟩
  · exact ⟨hpc, hslots⟩
  · exact ⟨(hadvance w hw).trans (by decide), hslots⟩
  · exact exec_pcBounded hexec (hadvance w hw) hslots

/-- Settles O25: only CALL writes a slot, and that slot is not below `sp`. -/
theorem liveSlotsAreKept : Obligations.LiveSlotsAreKept := by
  intro s t k h hk
  obtain ⟨-, rfl⟩ | ⟨-, -, -, rfl⟩ | ⟨w, e, -, -, -, -, rfl⟩ | ⟨w, i, -, -, -, -, hexec⟩ := step_next_cases h
  · rfl
  · rfl
  · rfl
  · exact exec_live_slot hexec hk

/-- Settles O37, each clause by what the handlers write. -/
theorem onlyTheDestinationChanges : Obligations.OnlyTheDestinationChanges := fun _ _ _ h =>
  ⟨fun _ => exec_reg h, fun a => by rw [exec_mem h], exec_slot h, exec_sp h⟩

/-- Settles O43: reset lists no byte, and every number is zero. -/
theorem invariantsHoldAtReset : Obligations.InvariantsHoldAtReset :=
  ⟨⟨rfl, by decide⟩, by decide, by decide⟩

/-- A host move keeps the invariant: it writes memory in the canonical form and refuses an `sp` above 16 (R142, R143). -/
theorem hostStep_keeps_inv {op : HostOp} {s t : State} (hinv : s.Inv) (h : hostStep op s = .next t) : t.Inv := by
  obtain ⟨hwf, hsp⟩ := hinv
  obtain ⟨-, rfl⟩ | ⟨-, ⟨-, -, rfl⟩ | ⟨-, rfl⟩⟩ | ⟨-, ⟨a, v, -, rfl⟩ | ⟨v, -, rfl⟩ | ⟨i, v, -, rfl⟩ | ⟨k, v, -, rfl⟩ |
    ⟨v, -, hv, rfl⟩⟩ := hostStep_next_cases h
  · exact invariantsHoldAtReset.1
  · exact ⟨hwf, hsp⟩
  · exact ⟨hwf, hsp⟩
  · exact ⟨Memory.wf_write hwf a v, hsp⟩
  · exact ⟨hwf, hsp⟩
  · exact ⟨hwf, hsp⟩
  · exact ⟨hwf, hsp⟩
  · exact ⟨hwf, hv⟩

/-- Settles O44: the invariant holds at reset and every step and host move keeps it. -/
theorem reachableStatesMeetInv : Obligations.ReachableStatesMeetInv := by
  intro s h
  induction h with
  | reset => exact invariantsHoldAtReset.1
  | step s t _ hstep ih => exact stepKeepsInv s t ih hstep
  | host s t op _ hhost ih => exact hostStep_keeps_inv ih hhost

end Sys2Proof.Machine
end

section
/-! PROOFS. HALT, CALL, RET and SE reg (spec/41_system.md R90; spec/42_control_transfer.md R92, R94; spec/43_skip.md R98). -/

namespace Sys2Proof.Machine

/-- Settles O17: the handler writes the status alone. -/
theorem haltStopsTheRun : Obligations.HaltStopsTheRun :=
  ⟨decodeWord_encode .halt, fun s => ⟨_, exec_halt s, rfl, rfl, setStatus_frame s .halted⟩⟩

/-- Settles O20: the next state is the old one with the push and the jump done. -/
theorem callPushesAndJumps : Obligations.CallPushesAndJumps := by
  refine ⟨fun w => decodeWord_of_op_two, fun addr s hsp => ?handler⟩
  case handler =>
    refine ⟨_, exec_call_push addr hsp, targetAddr_toNat addr, sp_add_one hsp, fun k hk => ?pushed, fun k hk => ?others,
      fun _ => rfl, fun _ => rfl, rfl⟩
    case pushed =>
      obtain rfl : k = slotIdx s.sp := BitVec.eq_of_toNat_eq (hk.trans (slotIdx_toNat hsp).symm)
      exact slot_setSlot_self s _ s.pc
    case others => exact slot_setSlot_ne s (ne_slotIdx hsp hk) s.pc

/-- Settles O21: the fault is taken before anything is written. -/
theorem callOnFullStackFaults : Obligations.CallOnFullStackFaults := fun addr s h =>
  ⟨_, exec_call_full addr h, rfl, rfl, raise_frame s .stackOverflow⟩

/-- The slot a RET pops is the one of index `sp - 1` (R92). -/
theorem slotIdx_sub_one {p : StackPtr} (h : 0 < p.toNat) (h' : p.toNat ≤ 16) :
    (slotIdx (p - 1#5)).toNat = p.toNat - 1 := by
  have hsub := sp_sub_one h
  rw [slotIdx_toNat (by omega), hsub]

/-- Settles O22: the next state is the old one with `sp` counted down and the slot at the new `sp` in `pc`. -/
theorem retPopsTheTop : Obligations.RetPopsTheTop := by
  refine ⟨decodeWord_encode .ret, fun s hpos hle => ⟨_, exec_ret_pop hpos hle, ?sp, fun k hk => ?slot, fun _ => rfl,
    fun _ => rfl, fun _ => rfl, rfl⟩⟩
  case sp =>
    rw [setPc_sp, setSp_sp, sp_sub_one hpos]
    omega
  case slot =>
    have hidx := slotIdx_sub_one hpos hle
    obtain rfl : k = slotIdx (s.sp - 1#5) := BitVec.eq_of_toNat_eq (by omega)
    rfl

/-- Settles O23: the fault is taken before anything is written. -/
theorem retOnEmptyStackFaults : Obligations.RetOnEmptyStackFaults := fun s h =>
  ⟨_, exec_ret_empty h, rfl, rfl, raise_frame s .stackUnderflow⟩

/-- Settles O28: the handler is a skip on the equality of the two values, so each side of it gives its own `pc`. -/
theorem seRegSkipsOnEqual : Obligations.SeRegSkipsOnEqual := by
  refine ⟨fun w => decodeWord_of_op_five, fun x y s => ?handler⟩
  case handler =>
    obtain ⟨hregs, hstack, hmem⟩ := skipIf_frame s (decide (s.reg x = s.reg y))
    exact ⟨_, exec_seReg x y s, skipIf_pc_of_pos s, skipIf_pc_of_neg s, hregs, hstack, hmem, skipIf_status s _⟩

end Sys2Proof.Machine
end

section
/-! PROOFS. The fetch and the step: out of bounds, an illegal word, a decoded instruction (spec/40_fetch_dispatch.md R80 to
R85; spec/60_exceptions.md R113 to R116). -/

namespace Sys2Proof.Machine

/-- Settles O1: one word of each family, decoded. -/
theorem wordExamples : Obligations.WordExamples := by
  unfold Obligations.WordExamples
  decide

/-- Settles O9: the two bytes of a fetched word are its high and its low half. -/
theorem fetchIsBoundedBigEndian : Obligations.FetchIsBoundedBigEndian := by
  intro s
  refine ⟨fetch_eq_none, fun w => ?word⟩
  case word =>
    simp only [fetch_eq_some, ← wordOfBytes_toNat, BitVec.toNat_inj]

/-- Settles O8: the bytes at `pc` are the fetched word, and a step at a word that decodes is its handler. -/
theorem stepRunsDecodedInstruction : Obligations.StepRunsDecodedInstruction := by
  intro s hi lo rest i hr hsp hhi hlo hd
  have hw : s.fetch = some (wordOfBytes hi lo) := fetch_eq_some.2 ⟨hi, lo, hhi, hlo, rfl⟩
  have hi : decodeWord (wordOfBytes hi lo) = .ok i := by
    rw [decode_two] at hd
    cases h : decodeWord (wordOfBytes hi lo) with
    | ok j => simpa [h, Except.map] using hd
    | error e => simp [h, Except.map] at hd
  exact ⟨step_eq_exec_of_decodeWord ⟨hr, hsp, hw⟩ hi, rfl, advancePc_pc_toNat hw⟩

/-- A step of a running engine is the running step (R80). -/
theorem step_of_running {s : State} (h : s.status = .running) : step s = runningStep s := by
  rw [step, cycle, h]

/-- A step at a `pc` where no word is fetched takes FetchOutOfBounds (R81). -/
theorem step_of_fetch_none {s : State} (hr : s.status = .running) (hsp : s.sp.toNat ≤ 16) (hf : s.fetch = none) :
    step s = .next (s.raise .fetchOutOfBounds) := by
  have hlegal : s.spLegal = true := decide_eq_true hsp
  rw [step_of_running hr, runningStep, if_pos hlegal, hf]

/-- A step at a word that is rejected takes UnimplementedOpcode with `pc` advanced (R84, D4). -/
theorem step_of_decodeWord_error {s : State} {w : Word} {e : Reject} (h : AtWord s w) (hd : decodeWord w = .error e) :
    step s = .next (s.advancePc.raise (.unimplementedOpcode w)) := by
  rw [step_atWord h, dispatchWord, hd]

/-- Settles O10: the fault is taken where no word is fetched, before `pc` is advanced. -/
theorem fetchOutOfBoundsFaults : Obligations.FetchOutOfBoundsFaults := fun s hr hsp hpc =>
  ⟨_, step_of_fetch_none hr hsp (fetch_eq_none.2 hpc), rfl, rfl, raise_frame s .fetchOutOfBounds⟩

/-- A word that decodes to no instruction is rejected. -/
theorem exists_error_of_not_ok {w : Word} (h : ∀ i, decodeWord w ≠ .ok i) : ∃ e, decodeWord w = .error e := by
  cases hd : decodeWord w with
  | ok i => exact absurd hd (h i)
  | error e => exact ⟨e, rfl⟩

/-- Settles O11: the rejected word is recorded, and `pc` has been advanced. -/
theorem illegalWordFaults : Obligations.IllegalWordFaults := by
  intro s w h hd
  obtain ⟨e, he⟩ := exists_error_of_not_ok hd
  have ⟨_, _, hw⟩ := h
  exact ⟨_, step_of_decodeWord_error h he, rfl, advancePc_pc_toNat hw, raise_frame s.advancePc _⟩

/-- Settles O12: a halted engine is answered as it is. -/
theorem haltedEngineIdles : Obligations.HaltedEngineIdles := by
  intro s h
  rw [step, cycle, h]

/-- A faulted engine takes no step: its record is answered (R118). -/
theorem step_of_faulted {s : State} {f : Fault} (h : s.status = .faulted f) : step s = .fault f := by
  rw [step, cycle, h]

end Sys2Proof.Machine
end

section
/-! PROOFS. What a step does to the status, and which faults there are (spec/60_exceptions.md R110 to R117). -/

namespace Sys2Proof.Machine

/-- Halting writes the status (R90). -/
@[simp] theorem halt_status (s : State) : s.halt.status = .halted := rfl

/-- Only HALT's handler halts a running engine (R90). -/
theorem exec_halted_iff {i : Instr} {s t : State} (h : exec i s = .next t) (hr : s.status = .running) :
    t.status = .halted ↔ i = .halt := by
  cases i with
  | ret => obtain ⟨-, rfl⟩ | ⟨-, -, rfl⟩ := exec_ret_cases h <;> simp [hr]
  | call addr => obtain ⟨-, rfl⟩ | ⟨-, rfl⟩ := exec_call_cases h <;> simp [hr]
  | halt | cls | jmp | seImm | sneImm | seReg | ldImm | addImm | ldReg | or | and | xor | addReg => cases h; simp [hr]

/-- A handler takes a fault in a running engine exactly for CALL with a full stack and for RET with an empty one
(R111, R112). -/
theorem exec_faulted_iff {i : Instr} {s t : State} {f : Fault} (h : exec i s = .next t) (hr : s.status = .running) :
    t.status = .faulted f ↔
      (f = .stackOverflow ∧ s.sp.toNat = 16 ∧ ∃ addr, i = .call addr) ∨
      (f = .stackUnderflow ∧ s.sp.toNat = 0 ∧ i = .ret) := by
  cases i with
  | ret =>
    obtain ⟨hsp, rfl⟩ | ⟨hpos, -, rfl⟩ := exec_ret_cases h
    · simp [hsp, eq_comm]
    · simp [hr, show s.sp.toNat ≠ 0 by omega]
  | call addr =>
    obtain ⟨hsp, rfl⟩ | ⟨hlt, rfl⟩ := exec_call_cases h
    · simp [hsp, eq_comm]
    · simp [hr, show s.sp.toNat ≠ 16 by omega]
  | halt | cls | jmp | seImm | sneImm | seReg | ldImm | addImm | ldReg | or | and | xor | addReg => cases h; simp [hr]

/-- A word decodes to a CALL exactly when its top nibble is 2 (R66). -/
theorem fieldOp_eq_two_iff {w : Word} {i : Instr} (h : decodeWord w = .ok i) :
    fieldOp w = 0x2#4 ↔ ∃ addr, i = .call addr := by
  constructor
  · intro hop
    exact ⟨_, Except.ok.inj (h.symm.trans (decodeWord_of_op_two hop))⟩
  · rintro ⟨addr, rfl⟩
    obtain rfl := decodeWord_eq_ok.1 h
    exact (fields_nnn 0x2#4 addr).1

/-- Equal words are the same instruction's (R66, R68). -/
theorem eq_encode_iff {w : Word} {i j : Instr} (h : decodeWord w = .ok i) : w = encode j ↔ i = j := by
  rw [eq_comm, ← decodeWord_eq_ok, h, Except.ok.injEq]

/-- Where no word is fetched the one cause is that of FetchOutOfBounds (R114). -/
theorem faultCause_of_fetch_none {s : State} {f : Fault} (hf : s.fetch = none) :
    FaultCause s f ↔ f = .fetchOutOfBounds := by
  cases f with
  | fetchOutOfBounds => simpa [FaultCause] using fetch_eq_none.1 hf
  | unimplementedOpcode | stackOverflow | stackUnderflow => simp [FaultCause, hf]

/-- Where a word was fetched there is no cause of FetchOutOfBounds (R114). -/
theorem not_faultCause_fetchOutOfBounds {s : State} {w : Word} (hf : s.fetch = some w) :
    ¬FaultCause s .fetchOutOfBounds :=
  Nat.not_lt.2 (pc_le_of_fetch hf)

/-- Where the fetched word is rejected the one cause is that of UnimplementedOpcode with the word (R113). -/
theorem faultCause_of_decodeWord_error {s : State} {w : Word} {e : Reject} {f : Fault} (hf : s.fetch = some w)
    (hd : decodeWord w = .error e) : FaultCause s f ↔ f = .unimplementedOpcode w := by
  obtain rfl := decodeWord_error hd
  cases f with
  | fetchOutOfBounds => simpa using not_faultCause_fetchOutOfBounds hf
  | unimplementedOpcode w' =>
    simp only [FaultCause, hf, Option.some.injEq, Fault.unimplementedOpcode.injEq]
    exact ⟨fun ⟨hw, _⟩ => hw.symm, fun hw => ⟨hw.symm, hw ▸ hd⟩⟩
  | stackOverflow =>
    simp only [FaultCause, hf, Option.some.injEq, reduceCtorEq, iff_false]
    rintro ⟨-, w', rfl, hop⟩
    simp [decodeWord_of_op_two hop] at hd
  | stackUnderflow =>
    simp only [FaultCause, hf, Option.some.injEq, reduceCtorEq, iff_false]
    rintro ⟨-, rfl⟩
    exact absurd hd (by decide)

/-- Where the fetched word decodes the causes are those of the call stack alone (R111, R112). -/
theorem faultCause_of_decodeWord_ok {s : State} {w : Word} {i : Instr} {f : Fault} (hf : s.fetch = some w)
    (hd : decodeWord w = .ok i) :
    FaultCause s f ↔
      (f = .stackOverflow ∧ s.sp.toNat = 16 ∧ ∃ addr, i = .call addr) ∨
      (f = .stackUnderflow ∧ s.sp.toNat = 0 ∧ i = .ret) := by
  cases f with
  | fetchOutOfBounds => simpa using not_faultCause_fetchOutOfBounds hf
  | unimplementedOpcode w' =>
    simp only [FaultCause, hf, Option.some.injEq, reduceCtorEq, false_and, or_false, iff_false]
    rintro ⟨rfl, he⟩
    simp [hd] at he
  | stackOverflow => simp [FaultCause, hf, fieldOp_eq_two_iff hd]
  | stackUnderflow =>
    have hret : w = 0x00EE#16 ↔ i = .ret := eq_encode_iff (j := .ret) hd
    simp [FaultCause, hf, hret]

/-- A running engine has a next state, halted by HALT alone and faulted by the cause of the fault alone (R85, R110). -/
theorem step_status {s : State} (hr : s.status = .running) (hsp : s.sp.toNat ≤ 16) :
    ∃ t, step s = .next t ∧ (t.status = .halted ↔ s.fetch = some 0x0000#16) ∧
      ∀ f, t.status = .faulted f ↔ FaultCause s f := by
  cases hf : s.fetch with
  | none =>
    refine ⟨_, step_of_fetch_none hr hsp hf, by simp, fun f => ?_⟩
    rw [faultCause_of_fetch_none hf, raise_status, Status.faulted.injEq, eq_comm]
  | some w =>
    have hat : AtWord s w := ⟨hr, hsp, hf⟩
    cases hd : decodeWord w with
    | error e =>
      refine ⟨_, step_of_decodeWord_error hat hd, ?halted, fun f => ?faulted⟩
      case halted =>
        simp only [raise_status, reduceCtorEq, Option.some.injEq, false_iff]
        rintro rfl
        exact absurd hd (by simp [decodeWord])
      case faulted =>
        rw [faultCause_of_decodeWord_error hf hd, raise_status, Status.faulted.injEq, eq_comm]
    | ok i =>
      obtain ⟨t, ht⟩ := exec_answers i (s := s.advancePc) hsp
      refine ⟨t, (step_eq_exec_of_decodeWord hat hd).trans ht, ?halted, fun f => ?faulted⟩
      case halted =>
        rw [exec_halted_iff ht hr, Option.some.injEq]
        exact (eq_encode_iff (j := .halt) hd).symm
      case faulted =>
        rw [faultCause_of_decodeWord_ok hf hd, exec_faulted_iff ht hr, advancePc_sp]

/-- Settles O14: the next state has one status, so no two causes hold together. -/
theorem statusAfterStep : Obligations.StatusAfterStep := by
  intro s hr hsp
  obtain ⟨t, ht, hhalted, hfaulted⟩ := step_status hr hsp
  refine ⟨t, ht, hhalted, hfaulted, fun f g hf hg => ?_⟩
  exact Status.faulted.inj (((hfaulted f).2 hf).symm.trans ((hfaulted g).2 hg))

/-- A handler that takes a fault in a running engine does nothing else (R115). -/
theorem exec_faulted {i : Instr} {s t : State} {f : Fault} (h : exec i s = .next t) (hr : s.status = .running)
    (hf : t.status = .faulted f) : t = s.raise f ∧ f ≠ .fetchOutOfBounds := by
  obtain ⟨rfl, hsp, addr, rfl⟩ | ⟨rfl, hsp, rfl⟩ := (exec_faulted_iff h hr).1 hf
  · rw [exec_call_full addr hsp] at h
    cases h
    exact ⟨rfl, nofun⟩
  · rw [exec_ret_empty hsp] at h
    cases h
    exact ⟨rfl, nofun⟩

/-- The address found from an advanced `pc` is the one it was advanced from (R116). -/
theorem faultAddr_add_two {f : Fault} (h : f ≠ .fetchOutOfBounds) (p : Word) : faultAddr f (p + 2#16) = p := by
  cases f with
  | fetchOutOfBounds => exact absurd rfl h
  | unimplementedOpcode | stackOverflow | stackUnderflow => exact add_sub_cancel_right p 2#16

/-- Settles O15: a fault is taken in the state of the step's start or in the advanced one, and changes the status alone. -/
theorem faultsArePrecise : Obligations.FaultsArePrecise := by
  intro s t f hr h hf
  have precise : ∀ g, g ≠ .fetchOutOfBounds → t = s.advancePc.raise g →
      SameRegs s t ∧ SameStack s t ∧ SameMem s t ∧ faultAddr f t.pc = s.pc := by
    rintro g hg rfl
    obtain rfl : g = f := Status.faulted.inj hf
    obtain ⟨hregs, hstack, hmem⟩ := advancePc_frame s
    exact ⟨hregs, hstack, hmem, faultAddr_add_two hg s.pc⟩
  obtain ⟨hhalted, -⟩ | ⟨-, -, -, rfl⟩ | ⟨w, e, -, -, -, -, rfl⟩ | ⟨w, i, -, -, -, -, hexec⟩ := step_next_cases h
  · simp [hr] at hhalted
  · obtain rfl : .fetchOutOfBounds = f := Status.faulted.inj hf
    obtain ⟨hregs, hstack, hmem⟩ := raise_frame s .fetchOutOfBounds
    exact ⟨hregs, hstack, hmem, rfl⟩
  · exact precise (.unimplementedOpcode w) nofun rfl
  · obtain ⟨rfl, hne⟩ := exec_faulted hexec hr hf
    exact precise f hne rfl

/-- Settles O13: no step is taken, and of the host's moves none but reset writes the status of a faulted engine. -/
theorem faultedIsTerminal : Obligations.FaultedIsTerminal := by
  intro s f hf
  refine ⟨step_of_faulted hf, by rw [hostStep, hostRun, hf], fun op t h => ?_⟩
  obtain ⟨rfl, rfl⟩ | ⟨-, ⟨hhalted, -⟩ | ⟨-, rfl⟩⟩ | ⟨-, hwrite⟩ := hostStep_next_cases h
  · exact .inr ⟨rfl, rfl⟩
  · simp [hf] at hhalted
  · exact .inl hf
  · obtain ⟨a, v, -, rfl⟩ | ⟨v, -, rfl⟩ | ⟨i, v, -, rfl⟩ | ⟨k, v, -, rfl⟩ | ⟨v, -, -, rfl⟩ := hwrite
    all_goals exact .inl hf

end Sys2Proof.Machine
end

section
/-! PROOFS. The table of `pc` after a step, and a CALL with the RET that matches it (spec/10_state.md R26;
spec/42_control_transfer.md R95). -/

namespace Sys2Proof.Machine

/-- A skip of an advanced `pc`, without wrap-around: 4 past the instruction when taken, 2 when not (R26). -/
theorem skipIf_advancePc_toNat {s : State} {w : Word} (hf : s.fetch = some w) (p : Prop) [Decidable p] :
    (s.advancePc.skipIf (decide p)).pc.toNat = if p then s.pc.toNat + 4 else s.pc.toNat + 2 := by
  have hadv := advancePc_pc_toNat hf
  have hle := pc_le_of_fetch hf
  by_cases h : p
  · rw [skipIf_pc_of_pos _ h, if_pos h, add_two_toNat (by omega), hadv]
  · rw [skipIf_pc_of_neg _ h, if_neg h, hadv]

/-- The slot a RET pops, named by its number (R92). -/
theorem slotIdx_sub_one_eq {p : StackPtr} (h : 0 < p.toNat) (h' : p.toNat ≤ 16) :
    slotIdx (p - 1#5) = BitVec.ofNat 4 (p.toNat - 1) := by
  apply BitVec.eq_of_toNat_eq
  rw [slotIdx_sub_one h h', BitVec.toNat_ofNat, Nat.mod_eq_of_lt (by omega)]

/-- The handler of an instruction leaves `pc` as the table says (R26). -/
theorem exec_advancePc_pc {s : State} {w : Word} (i : Instr) (hf : s.fetch = some w) (hsp : s.sp.toNat ≤ 16) :
    ∃ t, exec i s.advancePc = .next t ∧ t.pc.toNat = pcAfter i s := by
  have hadv := advancePc_pc_toNat hf
  cases i with
  | halt | cls | ldImm | addImm | ldReg | or | and | xor | addReg => exact ⟨_, rfl, hadv⟩
  | seImm x kk => exact ⟨_, exec_seImm x kk _, skipIf_advancePc_toNat hf (s.reg x = kk)⟩
  | sneImm x kk => exact ⟨_, exec_sneImm x kk _, skipIf_advancePc_toNat hf (s.reg x ≠ kk)⟩
  | seReg x y => exact ⟨_, exec_seReg x y _, skipIf_advancePc_toNat hf (s.reg x = s.reg y)⟩
  | jmp addr => exact ⟨_, exec_jmp addr _, targetAddr_toNat addr⟩
  | call addr =>
    by_cases hfull : s.sp.toNat = 16
    · exact ⟨_, exec_call_full addr hfull, by rw [pcAfter, if_pos hfull]; exact hadv⟩
    · exact ⟨_, exec_call_push addr (s := s.advancePc) (by rw [advancePc_sp]; omega),
        by rw [pcAfter, if_neg hfull]; exact targetAddr_toNat addr⟩
  | ret =>
    by_cases hempty : s.sp.toNat = 0
    · exact ⟨_, exec_ret_empty hempty, by rw [pcAfter, if_pos hempty]; exact hadv⟩
    · have hpos : 0 < s.sp.toNat := by omega
      exact ⟨_, exec_ret_pop (s := s.advancePc) hpos hsp, by
        rw [pcAfter, if_neg hempty, ← slotIdx_sub_one_eq hpos hsp]; rfl⟩

/-- Settles O16: the step runs the handler, and the handler follows the table. -/
theorem pcAfterStep : Obligations.PcAfterStep := by
  intro s w i h hd
  have ⟨_, hsp, hf⟩ := h
  obtain ⟨t, ht, hpc⟩ := exec_advancePc_pc i hf hsp
  exact ⟨t, (step_eq_exec_of_decodeWord h hd).trans ht, hpc⟩

/-- Steps that never go below a depth keep the slots below it, and stay at or above it (R95). -/
theorem stepsAbove_keeps {d : Nat} {t u : State} (h : StepsAbove d t u) (hd : d ≤ t.sp.toNat) :
    d ≤ u.sp.toNat ∧ ∀ k : SlotIdx, k.toNat < d → u.slot k = t.slot k := by
  induction h with
  | refl => exact ⟨hd, fun _ _ => rfl⟩
  | tail u v _ hstep hv ih =>
    obtain ⟨hu, hslots⟩ := ih
    exact ⟨hv, fun k hk => (liveSlotsAreKept u v k hstep (hk.trans_le hu)).trans (hslots k hk)⟩

/-- What a CALL step with a free slot leaves: one more address held, the return address in the new top slot, the slots below
as they were (R94). -/
theorem step_call {s t : State} {w : Word} {addr : Addr} (h : AtWord s w) (hd : decodeWord w = .ok (.call addr))
    (hlt : s.sp.toNat < 16) (hstep : step s = .next t) :
    t.sp.toNat = s.sp.toNat + 1 ∧ t.slot (slotIdx s.sp) = s.pc + 2#16 ∧
      ∀ k : SlotIdx, k.toNat < s.sp.toNat → t.slot k = s.slot k := by
  rw [step_eq_exec_of_decodeWord h hd, exec_call_push (s := s.advancePc) addr hlt] at hstep
  cases hstep
  exact ⟨sp_add_one hlt, slot_setSlot_self .., fun k hk => slot_setSlot_ne _ (ne_slotIdx hlt hk.ne) _⟩

/-- What a RET step with 1 to 16 addresses held does (R92). -/
theorem step_ret {s : State} (h : AtWord s 0x00EE#16) (hpos : 0 < s.sp.toNat) :
    step s = .next ((s.advancePc.setSp (s.sp - 1#5)).setPc (s.slot (slotIdx (s.sp - 1#5)))) := by
  have ⟨_, hle, _⟩ := h
  exact (step_eq_exec_of_decodeWord h (decodeWord_encode .ret)).trans (exec_ret_pop (s := s.advancePc) hpos hle)

/-- Settles O24: the CALL's slot and those below it are live until the RET, which pops the CALL's. -/
theorem callRetRoundTrip : Obligations.CallRetRoundTrip := by
  intro s t u w addr hs hd hlt hstep habove husp hu
  obtain ⟨htsp, hpushed, hbelow⟩ := step_call hs hd hlt hstep
  obtain ⟨-, hkept⟩ := stepsAbove_keeps habove htsp.ge
  have hpos : 0 < u.sp.toNat := by omega
  have hsp : u.sp - 1#5 = s.sp := BitVec.eq_of_toNat_eq (by rw [sp_sub_one hpos]; omega)
  have hreturn : u.slot (slotIdx s.sp) = s.pc + 2#16 :=
    (hkept _ (by rw [slotIdx_toNat hlt]; omega)).trans hpushed
  have hret := step_ret hu hpos
  rw [hsp, hreturn] at hret
  have ⟨_, _, hf⟩ := hs
  exact ⟨_, hret, advancePc_pc_toNat hf, rfl, fun k hk => (hkept k (by omega)).trans (hbelow k hk), fun _ => rfl⟩

end Sys2Proof.Machine
end

section
/-! PROOFS. What a handler and a step depend on: the registers read, the word fetched (spec/10_state.md R23;
spec/20_memory.md R41; spec/40_fetch_dispatch.md R88). -/

namespace Sys2Proof.Machine

/-- The next state `t'` of an instruction, from a state that may differ in the registers the instruction does not read, is
`t` but for those registers (R23). -/
def SameEffect (i : Instr) (s' t t' : State) : Prop :=
  t'.pc = t.pc ∧ t'.sp = t.sp ∧ t'.stack = t.stack ∧ t'.status = t.status ∧ t'.mem = t.mem ∧
    (∀ x, destReg i = some x → t'.reg x = t.reg x) ∧ ∀ j, destReg i ≠ some j → t'.reg j = s'.reg j

/-- Two next states of an instruction with no destination that differ in the registers alone are the same effect. -/
theorem sameEffect_of_no_dest {i : Instr} {s t t' : State} {V : Vector Byte 16} (hd : destReg i = none)
    (ht : t' = { t with V := V }) : SameEffect i { s with V := V } t t' := by
  subst ht
  exact ⟨rfl, rfl, rfl, rfl, rfl, fun x hx => by simp [hd] at hx, fun _ _ => rfl⟩

/-- One value written to the destination in both runs is the same effect. -/
theorem sameEffect_setReg {i : Instr} {s : State} {V : Vector Byte 16} {x : RegIdx} (hd : destReg i = some x) (v : Byte) :
    SameEffect i { s with V := V } (s.setReg x v) (({ s with V := V } : State).setReg x v) := by
  refine ⟨rfl, rfl, rfl, rfl, rfl, fun y hy => ?dest, fun j hj => ?others⟩
  case dest =>
    obtain rfl : x = y := by simpa [hd] using hy
    rw [reg_setReg_self, reg_setReg_self]
  case others => exact reg_setReg_ne _ (fun e => hj (by rw [hd, e])) v

/-- A skip under one condition in both runs is the same effect. -/
theorem sameEffect_skipIf {i : Instr} {s : State} {V : Vector Byte 16} (hd : destReg i = none) (c : Bool) :
    SameEffect i { s with V := V } (s.skipIf c) (({ s with V := V } : State).skipIf c) := by
  rw [skipIf_eq, skipIf_eq]
  exact sameEffect_of_no_dest hd rfl

/-- A handler run with other values in the registers it does not read has the same effect (R23). -/
theorem exec_withRegs {i : Instr} {s t : State} {V : Vector Byte 16}
    (hread : ∀ j ∈ readRegs i, ({ s with V := V } : State).reg j = s.reg j) (h : exec i s = .next t) :
    ∃ t', exec i { s with V := V } = .next t' ∧ SameEffect i { s with V := V } t t' := by
  simp only [readRegs] at hread
  cases i with
  | halt | cls | jmp => cases h; exact ⟨_, rfl, sameEffect_of_no_dest rfl rfl⟩
  | ret =>
    obtain ⟨hsp, rfl⟩ | ⟨hpos, hle, rfl⟩ := exec_ret_cases h
    · exact ⟨_, exec_ret_empty hsp, sameEffect_of_no_dest rfl rfl⟩
    · exact ⟨_, exec_ret_pop hpos hle, sameEffect_of_no_dest rfl rfl⟩
  | call addr =>
    obtain ⟨hsp, rfl⟩ | ⟨hlt, rfl⟩ := exec_call_cases h
    · exact ⟨_, exec_call_full addr hsp, sameEffect_of_no_dest rfl rfl⟩
    · exact ⟨_, exec_call_push addr hlt, sameEffect_of_no_dest rfl rfl⟩
  | seImm | sneImm | seReg =>
    simp only [List.mem_cons, List.not_mem_nil, or_false, forall_eq, forall_eq_or_imp] at hread
    simp only [exec_seImm, exec_sneImm, exec_seReg, Host.Outcome.next.injEq, hread] at h ⊢
    subst h
    exact ⟨_, rfl, sameEffect_skipIf rfl _⟩
  | ldImm | addImm | ldReg | or | and | xor | addReg =>
    simp only [List.mem_cons, List.not_mem_nil, or_false, forall_eq, forall_eq_or_imp] at hread
    simp only [exec_ldImm, exec_addImm, exec_ldReg, exec_or, exec_and, exec_xor, exec_addReg, Host.Outcome.next.injEq,
      hread] at h ⊢
    subst h
    exact ⟨_, rfl, sameEffect_setReg rfl _⟩

/-- Settles O38: the second state is the first one with other registers. -/
theorem onlyTheOperandsMatter : Obligations.OnlyTheOperandsMatter := by
  intro i s s' t hpc hsp hstack hstatus hmem hread h
  obtain ⟨V, rfl⟩ : ∃ V, s' = { s with V := V } := ⟨s'.V, by cases s; cases s'; simp_all⟩
  exact exec_withRegs hread h

/-- A handler does the same in another memory (R41). -/
theorem exec_setMem {i : Instr} {s t : State} (m : Memory) (h : exec i s = .next t) :
    exec i (s.setMem m) = .next (t.setMem m) := by
  cases i with
  | ret =>
    obtain ⟨hsp, rfl⟩ | ⟨hpos, hle, rfl⟩ := exec_ret_cases h
    · exact exec_ret_empty hsp
    · exact exec_ret_pop hpos hle
  | call addr =>
    obtain ⟨hsp, rfl⟩ | ⟨hlt, rfl⟩ := exec_call_cases h
    · exact exec_call_full addr hsp
    · exact exec_call_push addr hlt
  | seImm | sneImm | seReg =>
    simp only [exec_seImm, exec_sneImm, exec_seReg, skipIf_eq, Host.Outcome.next.injEq] at h ⊢
    subst h
    rfl
  | halt | cls | jmp | ldImm | addImm | ldReg | or | and | xor | addReg => cases h; rfl

/-- Settles O40: with the word fetched the same, each way to a next state is the same in the other memory. -/
theorem stepReadsOnlyTheFetchedWord : Obligations.StepReadsOnlyTheFetchedWord := by
  intro s t m hsame h
  change step (s.setMem m) = .next (t.setMem m)
  replace hsame : (s.setMem m).fetch = s.fetch := hsame
  obtain ⟨hhalted, rfl⟩ | ⟨hr, hsp, hf, rfl⟩ | ⟨w, e, hr, hsp, hf, hd, rfl⟩ | ⟨w, i, hr, hsp, hf, hd, hexec⟩ :=
    step_next_cases h
  · exact haltedEngineIdles _ hhalted
  · exact step_of_fetch_none hr hsp (hsame.trans hf)
  · exact step_of_decodeWord_error ⟨hr, hsp, hsame.trans hf⟩ hd
  · have hat : AtWord (s.setMem m) w := ⟨hr, hsp, hsame.trans hf⟩
    exact (step_eq_exec_of_decodeWord hat hd).trans (exec_setMem m hexec)

end Sys2Proof.Machine
end

section
/-! PROOFS. A run of steps alone: how it can end (spec/40_fetch_dispatch.md R85; spec/70_reset_and_hazards.md R147). -/

namespace Sys2Proof.Machine

/-- A run of one step more takes its first step and goes on from there. -/
theorem run_succ_eq_next {M : Host.Core} {s t : M.State} {k : Nat} :
    M.run (k + 1) s = .next t ↔ ∃ u, M.step s = .next u ∧ M.run k u = .next t := by
  rw [Host.Core.run]
  cases M.step s <;> simp

/-- A longer run goes on from where a shorter one arrived. -/
theorem run_add_eq_next {M : Host.Core} {s t v : M.State} {k j : Nat} (h : M.run k s = .next t) :
    M.run (k + j) s = .next v ↔ M.run j t = .next v := by
  induction k generalizing s with
  | zero =>
    cases h
    rw [Nat.zero_add]
  | succ k ih =>
    obtain ⟨u, hu, ht⟩ := run_succ_eq_next.1 h
    rw [Nat.succ_add, run_succ_eq_next]
    exact ⟨fun ⟨u', hu', hv⟩ => by cases hu.symm.trans hu'; exact (ih ht).1 hv, fun hv => ⟨u, hu, (ih ht).2 hv⟩⟩

/-- A step of an engine that is not running leads nowhere else (R118, R129). -/
theorem step_of_not_running {s t : State} (hs : s.status ≠ .running) (h : step s = .next t) : t = s := by
  obtain ⟨-, ht⟩ | ⟨hr, -⟩ | ⟨w, e, hr, -⟩ | ⟨w, i, hr, -⟩ := step_next_cases h
  · exact ht
  · exact absurd hr hs
  · exact absurd hr hs
  · exact absurd hr hs

/-- A run of an engine that is not running leads nowhere else. -/
theorem run_of_not_running {s t : State} {k : Nat} (hs : s.status ≠ .running)
    (h : Host.Core.run core k s = .next t) : t = s := by
  induction k with
  | zero => cases h; rfl
  | succ k ih =>
    obtain ⟨u, hu, ht⟩ := run_succ_eq_next.1 h
    obtain rfl := step_of_not_running hs hu
    exact ih ht

/-- A run arrives at one state at most that is not running. -/
theorem run_end_unique {s t t' : State} {k k' : Nat} (h : Host.Core.run core k s = .next t) (ht : t.status ≠ .running)
    (h' : Host.Core.run core k' s = .next t') (ht' : t'.status ≠ .running) : t = t' := by
  obtain hle | hle := Nat.le_total k k'
  · obtain ⟨j, rfl⟩ := Nat.exists_eq_add_of_le hle
    exact (run_of_not_running ht ((run_add_eq_next h).1 h')).symm
  · obtain ⟨j, rfl⟩ := Nat.exists_eq_add_of_le hle
    exact run_of_not_running ht' ((run_add_eq_next h').1 h)

/-- A run that is never found ended has a next state after any number of steps, and that state is running: a running engine
in a state of the machine always has a next state (R85). -/
theorem neverEnds_of_not_ended {s : State} (hinv : s.Inv)
    (h : ∀ k t, Host.Core.run core k s = .next t → t.status = .running) : NeverEnds s := by
  have answers : ∀ k, ∃ t : State, Host.Core.run core k s = .next t ∧ t.Inv := by
    intro k
    induction k with
    | zero => exact ⟨s, rfl, hinv⟩
    | succ k ih =>
      obtain ⟨t, ht, htinv⟩ := ih
      have ⟨_, hsp⟩ := htinv
      obtain ⟨u, hu, -⟩ := step_status (h k t ht) hsp
      refine ⟨u, (run_add_eq_next (M := core) ht).2 ?_, stepKeepsInv t u htinv hu⟩
      exact run_succ_eq_next.2 ⟨u, hu, rfl⟩
  intro k
  obtain ⟨t, ht, -⟩ := answers k
  exact ⟨t, ht, h k t ht⟩

/-- A run that never ends is found running wherever it arrives. -/
theorem status_of_neverEnds {s t : State} {k : Nat} (hs : NeverEnds s) (h : Host.Core.run core k s = .next t) :
    t.status = .running := by
  obtain ⟨t', ht', hr⟩ := hs k
  cases h.symm.trans ht'
  exact hr

/-- Settles O45: a run either arrives at a state that is not running, and at one only, or never does. -/
theorem runEndsInTwoWaysOrNever : Obligations.RunEndsInTwoWaysOrNever := by
  intro s hinv _
  refine ⟨?ends, ?halted_faulted, ?halted_never, ?faulted_never, ?one_fault⟩
  case ends =>
    by_cases hend : ∃ (k : Nat) (t : State), Host.Core.run core k s = .next t ∧ t.status ≠ .running
    · obtain ⟨k, t, ht, hstatus⟩ := hend
      cases hst : t.status with
      | running => exact absurd hst hstatus
      | halted => exact .inl ⟨k, t, ht, hst⟩
      | faulted f => exact .inr (.inl ⟨f, k, t, ht, hst⟩)
    · push Not at hend
      exact .inr (.inr (neverEnds_of_not_ended hinv hend))
  case halted_faulted =>
    rintro f ⟨⟨k, t, ht, hst⟩, ⟨k', t', ht', hst'⟩⟩
    obtain rfl := run_end_unique ht (by simp [hst]) ht' (by simp [hst'])
    cases hst.symm.trans hst'
  case halted_never =>
    rintro ⟨⟨k, t, ht, hst⟩, hnever⟩
    cases hst.symm.trans (status_of_neverEnds hnever ht)
  case faulted_never =>
    rintro f ⟨⟨k, t, ht, hst⟩, hnever⟩
    cases hst.symm.trans (status_of_neverEnds hnever ht)
  case one_fault =>
    rintro f g ⟨k, t, ht, hst⟩ ⟨k', t', ht', hst'⟩
    obtain rfl := run_end_unique ht (by simp [hst]) ht' (by simp [hst'])
    exact Status.faulted.inj (hst.symm.trans hst')

end Sys2Proof.Machine
end

section
/-! PROOFS. Reset, the host's moves and a placed instruction (spec/70_reset_and_hazards.md R140 to R149). -/

namespace Sys2Proof.Machine

/-- Settles O46: reset answers its own state, whose every number is zero. -/
theorem resetValues : Obligations.ResetValues := by
  intro s
  refine ⟨State.reset, rfl, rfl, fun a ha => if_pos ha, fun a ha => if_neg (Nat.not_lt.2 ha), rfl, fun i => ?reg,
    fun k => ?slot, rfl, rfl⟩
  case reg => exact Vector.getElem_replicate ..
  case slot => exact Vector.getElem_replicate ..

/-- A host write while the engine is not running is done (R141). -/
theorem hostWrite_of_not_running {s : State} (h : s.status ≠ .running) (t : State) : hostWrite s t = .next t := if_neg h

/-- The run command in a halted engine (R144). -/
theorem hostStep_run_of_halted {s : State} (h : s.status = .halted) :
    hostStep .run s = if s.spLegal then .next (s.setStatus .running) else .refused .spOutOfRange := by
  rw [hostStep, hostRun, h]

/-- Settles O47: the launch writes the status of a halted engine, and a move in another status is none. -/
theorem runCommand : Obligations.RunCommand := by
  refine ⟨fun s hs hsp => ?launch, fun s hs => ?idle⟩
  case launch =>
    have hlegal : s.spLegal = true := decide_eq_true hsp
    exact ⟨_, (hostStep_run_of_halted hs).trans (if_pos hlegal), rfl, rfl, setStatus_frame s .running⟩
  case idle =>
    cases hst : s.status with
    | halted => exact absurd hst hs
    | running | faulted => rw [hostStep, hostRun, hst]

/-- Settles O48: while the engine is not running each write is done, and it writes its own item. -/
theorem hostWritesTakeEffect : Obligations.HostWritesTakeEffect := by
  intro s hinv hs
  obtain ⟨hwf, -⟩ := hinv
  have write := hostWrite_of_not_running hs
  refine ⟨fun a v => ?mem, fun v => ⟨_, write _, rfl⟩, fun i v => ?reg, fun k v => ?slot, fun v hv => ?sp, if_neg hs⟩
  case mem =>
    refine ⟨_, write _, ?written, fun b hb => ?others, Memory.wf_write hwf a v, rfl⟩
    case written => rw [setMem_mem, Memory.read_write hwf, if_pos rfl]
    case others => rw [setMem_mem, Memory.read_write hwf, if_neg hb]
  case reg => exact ⟨_, write _, reg_setReg_self s i v, fun j hj => reg_setReg_ne s hj v, rfl⟩
  case slot => exact ⟨_, write _, slot_setSlot_self s k v, fun j hj => slot_setSlot_ne s hj v, rfl⟩
  case sp => exact ⟨_, (if_pos hv).trans (write _), rfl⟩

/-- Settles O49: of the moves with a next state only reset and the run command are left while the engine runs. -/
theorem hostHasNoMoveDuringARun : Obligations.HostHasNoMoveDuringARun := by
  intro s t op hr h
  refine ⟨?_, if_pos hr⟩
  obtain ⟨rfl, rfl⟩ | ⟨rfl, ⟨hhalted, -⟩ | ⟨-, rfl⟩⟩ | ⟨hidle, -⟩ := hostStep_next_cases h
  · exact .inl ⟨rfl, rfl⟩
  · cases hr.symm.trans hhalted
  · exact .inr ⟨rfl, rfl⟩
  · exact absurd hr hidle

/-- Settles O50: each of the three tests `sp` against 16 before it does anything. -/
theorem spAbove16IsRefused : Obligations.SpAbove16IsRefused := by
  have illegal : ∀ s : State, 16 < s.sp.toNat → ¬s.spLegal = true := fun s h => by
    simpa [State.spLegal] using h
  refine ⟨fun s v hv => if_neg (Nat.not_le.2 hv), fun s h hs => ?launch, fun s h hs => ?step⟩
  case launch => exact (hostStep_run_of_halted hs).trans (if_neg (illegal s h))
  case step => exact (step_of_running hs).trans (if_neg (illegal s h))

/-- What the decoder reads from a table word is what the dispatcher reads from it (R60, R61). -/
theorem decodeTableWord_eq_some {nbits w : Nat} {i : Instr} :
    decodeTableWord nbits w = some i ↔ decodeWord (tableWord nbits w) = .ok i := by
  rw [decodeTableWord, decode_two, wordOfBytes_high_low]
  cases decodeWord (tableWord nbits w) <;> simp [Except.map]

/-- The state a word is placed in has a `pc` where a word is fetched (log 5). -/
theorem withLegalPc_le (s : State) : s.withLegalPc.pc.toNat ≤ 4094 := by
  unfold State.withLegalPc
  split
  · assumption
  · exact Nat.zero_le _

/-- The state a word is placed in has a legal `sp` (log 5). -/
theorem withLegalSp_le (s : State) : s.withLegalSp.sp.toNat ≤ 16 := by
  unfold State.withLegalSp
  split
  · exact of_decide_eq_true ‹_›
  · exact Nat.zero_le _

/-- Making `sp` legal leaves `pc` and memory alone (log 5). -/
theorem withLegalSp_frame (s : State) : s.withLegalSp.pc = s.pc ∧ s.withLegalSp.mem = s.mem := by
  unfold State.withLegalSp
  split <;> exact ⟨rfl, rfl⟩

/-- Making `pc` legal leaves memory alone (log 5). -/
theorem withLegalPc_mem (s : State) : s.withLegalPc.mem = s.mem := by
  unfold State.withLegalPc
  split <;> rfl

/-- Two bytes written at an address and the next are read back as the word they make (R42, R142). -/
theorem read16_write_write {m : Memory} (hm : Memory.wf m = true) {p : Word} (hp : p.toNat ≤ 4094) (hi lo : Byte) :
    Memory.read16 ((m.write (p.setWidth 12) hi).write (p.setWidth 12 + 1#12) lo) p.toNat = some (wordOfBytes hi lo) := by
  have ha : (p.setWidth 12 : Addr).toNat = p.toNat := by
    rw [BitVec.toNat_setWidth, Nat.mod_eq_of_lt (by omega)]
  have hb : (p.setWidth 12 + 1#12 : Addr).toNat = p.toNat + 1 := by
    rw [BitVec.toNat_add, ha, BitVec.toNat_ofNat, Nat.mod_eq_of_lt (by omega)]
  refine Memory.read16_eq_some.2 ⟨hi, lo, ?high, ?low, rfl⟩
  case high => rw [Memory.read_write (Memory.wf_write hm _ _), Memory.read_write hm, ha, hb, if_neg (by omega), if_pos rfl]
  case low => rw [Memory.read_write (Memory.wf_write hm _ _), hb, if_pos rfl]

/-- The next step of a state with a word placed fetches that word (log 4). -/
theorem atWord_placeWord {s : State} (hwf : Memory.wf s.mem = true) (w : Word) : AtWord (s.placeWord w) w := by
  obtain ⟨hpc, hmem⟩ := withLegalSp_frame s.withLegalPc
  refine ⟨rfl, withLegalSp_le _, ?fetch⟩
  case fetch =>
    have hle : s.withLegalPc.withLegalSp.pc.toNat ≤ 4094 := by
      rw [hpc]
      exact withLegalPc_le s
    have hm : Memory.wf s.withLegalPc.withLegalSp.mem = true := by rwa [hmem, withLegalPc_mem]
    exact (read16_write_write hm hle (highByte w) (lowByte w)).trans (by rw [wordOfBytes_high_low])

/-- Settles O51: the placed word is the one fetched, and it decodes to the instruction. -/
theorem placedInstructionRunsNext : Obligations.PlacedInstructionRunsNext := fun _ _ _ _ hwf hd =>
  step_eq_exec_of_decodeWord (atWord_placeWord hwf _) (decodeTableWord_eq_some.1 hd)

end Sys2Proof.Machine
end
